-- ==== Sys2Proof/Word.lean ====
section
/-! DEFINITION. The word types of the block and the number of taps. -/

namespace Sys2Proof

/-- A 32-bit pattern: `bits32` of rule R11; an `f32` is a pattern read as binary32 (R7, R120). -/
abbrev Word := BitVec 32

/-- A 16-bit pattern, the carrier of an `i16` (R11, R100). -/
abbrev Half := BitVec 16

/-- A command word `cmd_word[34:0]` (R62). -/
abbrev CommandWord := BitVec 35

/-- A response word `rsp_word[32:0]` (R64). -/
abbrev ResponseWord := BitVec 33

/-- `N = 50`: taps, history slots and coefficients (R6). -/
abbrev tapCount : Nat := 50

end Sys2Proof
end

