-- ==== Sys2Proof/Syntax.lean ====
section
/-! DEFINITION. The commands: one constructor per row of spec/opcode_table.json (R66). The operand bits a command ignores
(R68) are kept, so that every command word is the encoding of exactly one instruction. -/

namespace Sys2Proof

inductive Instr where
  /-- INIT, op 1, format Z (R80). -/
  | init (ignored : Word)
  /-- PUSH, op 2, format F (R82). -/
  | push (sample : Word)
  /-- PRODUCE, op 3, format Z (R84). -/
  | produce (ignored : Word)
  /-- TOFLOAT, op 4, format H: `arg[31:16]` is ignored (R101). -/
  | toFloat (ignored sample : Half)
  /-- TOINT, op 5, format F (R103). -/
  | toInt (sample : Word)
  /-- The table's first ILLEGAL row: op 0 (R140). -/
  | illegalZero (arg : Word)
  /-- The table's second ILLEGAL row: op 6 or 7 (R140). -/
  | illegalHigh (op : BitVec 3) (arg : Word)
  deriving DecidableEq, Repr

end Sys2Proof
end

