-- ==== Sys2Proof/WellFormed.lean ====
section
/-! DEFINITION. Which terms of Instr are commands of the block. -/

namespace Sys2Proof

/-- The opcode numbers that the table's second ILLEGAL row covers (R66, R69). -/
def reservedHigh (op : BitVec 3) : Bool := op == 6#3 || op == 7#3

/-- Every field has its exact width by its type; the one check left is that `illegalHigh` holds a reserved opcode. -/
def Instr.wellFormed : Instr → Bool
  | .init _ => true
  | .push _ => true
  | .produce _ => true
  | .toFloat _ _ => true
  | .toInt _ => true
  | .illegalZero _ => true
  | .illegalHigh op _ => reservedHigh op

end Sys2Proof
end

