-- ==== Sys2Proof/Decode.lean ====
section
/-! DEFINITION. The opcode table, the decoder (total on 35-bit words, R70) and the encoder (30_encoding.md R62, R63, R66,
R67). -/

namespace Sys2Proof

/-- `op = cmd_word[34:32]` (R62). -/
def opField (w : CommandWord) : BitVec 3 := w.extractLsb' 32 3

/-- `arg = cmd_word[31:0]` (R62). -/
def argField (w : CommandWord) : Word := w.extractLsb' 0 32

/-- `arg[31:16]`, which format H ignores (R63). -/
def argHigh (arg : Word) : Half := arg.extractLsb' 16 16

/-- `arg[15:0]`, the operand of format H (R63, R67). -/
def argLow (arg : Word) : Half := arg.extractLsb' 0 16

/-- The instruction with opcode `op` and operand word `arg` (R66, R69). -/
def decodeFields (op : BitVec 3) (arg : Word) : Instr :=
  if op = 1#3 then .init arg
  else if op = 2#3 then .push arg
  else if op = 3#3 then .produce arg
  else if op = 4#3 then .toFloat (argHigh arg) (argLow arg)
  else if op = 5#3 then .toInt arg
  else if op = 0#3 then .illegalZero arg
  else .illegalHigh op arg

/-- The decoder: it looks at `op` alone (R66). -/
def decode (w : CommandWord) : Instr := decodeFields (opField w) (argField w)

/-- Why a number is no command. -/
inductive DecodeError where
  /-- The number does not fit in 35 bits: every command is one 35-bit word (R62, R71). -/
  | notACommandWord
  deriving DecidableEq, Repr

/-- The decoder on numbers: a number above 35 bits is rejected by name. -/
def decodeNumber (n : Nat) : Except DecodeError Instr :=
  if n < 2 ^ 35 then .ok (decode (BitVec.ofNat 35 n)) else .error .notACommandWord

/-- The host's question: what the decoder reads from a table word of `nbits` bits, the bits above them zero. -/
def decodeTableWord (nbits w : Nat) : Option Instr :=
  match decodeNumber (w % 2 ^ nbits) with
  | .ok i => some i
  | .error _ => none

/-- The opcode number of an instruction (R66). -/
def Instr.opcode : Instr → BitVec 3
  | .init _ => 1#3
  | .push _ => 2#3
  | .produce _ => 3#3
  | .toFloat _ _ => 4#3
  | .toInt _ => 5#3
  | .illegalZero _ => 0#3
  | .illegalHigh op _ => op

/-- The operand word of an instruction (R63). -/
def Instr.operandWord : Instr → Word
  | .init ignored => ignored
  | .push sample => sample
  | .produce ignored => ignored
  | .toFloat ignored sample => ignored ++ sample
  | .toInt sample => sample
  | .illegalZero arg => arg
  | .illegalHigh _ arg => arg

/-- The encoder: the command word `{op, arg}` (R62). -/
def encode (i : Instr) : CommandWord := i.opcode ++ i.operandWord

/-- The mnemonic of spec/opcode_table.json (R66). -/
def Instr.mnemonic : Instr → String
  | .init _ => "INIT"
  | .push _ => "PUSH"
  | .produce _ => "PRODUCE"
  | .toFloat _ _ => "TOFLOAT"
  | .toInt _ => "TOINT"
  | .illegalZero _ => "ILLEGAL"
  | .illegalHigh _ _ => "ILLEGAL"

/-- One row of spec/opcode_table.json. -/
structure OpcodeRow where
  mnemonic : String
  matchBits : CommandWord
  maskBits : CommandWord
  deriving DecidableEq, Repr

/-- Whether a word falls under a row. -/
def OpcodeRow.covers (r : OpcodeRow) (w : CommandWord) : Bool := (w &&& r.maskBits) == r.matchBits

/-- The rows of spec/opcode_table.json in its order. -/
def opcodeTable : List OpcodeRow :=
  [ ⟨"INIT", 0x100000000, 0x700000000⟩,
    ⟨"PUSH", 0x200000000, 0x700000000⟩,
    ⟨"PRODUCE", 0x300000000, 0x700000000⟩,
    ⟨"TOFLOAT", 0x400000000, 0x700000000⟩,
    ⟨"TOINT", 0x500000000, 0x700000000⟩,
    ⟨"ILLEGAL", 0x000000000, 0x700000000⟩,
    ⟨"ILLEGAL", 0x600000000, 0x600000000⟩ ]

end Sys2Proof
end

