-- ==== Sys2Proof/Machine/Float.lean ====
section
/-! DEFINITION. The binary32 format and its arithmetic: fields, classes, exact values, comparison, rounding, `fmul32`,
`fadd32`, and the two integer conversions (42_float_numerics.md R120 to R131, 41_conversion.md R103). Exact rationals are
written as an integer numerator over a natural denominator, so that the kernel can evaluate every function; `val` is the
rational itself. -/

namespace Sys2Proof.Machine

/-- The sign bit `s = x[31]` (R120). -/
def signBit (x : Word) : Bool := x.getLsbD 31

/-- The biased exponent `e = unsigned(x[30:23])` (R120). -/
def biasedExp (x : Word) : Nat := (x.extractLsb' 23 8).toNat

/-- The fraction `f = unsigned(x[22:0])` (R120). -/
def fraction (x : Word) : Nat := (x.extractLsb' 0 23).toNat

/-- The pattern `{s, e, f}` of rule R120, each field narrowed to its width. -/
def packF32 (s : Bool) (e f : Nat) : Word := BitVec.ofBool s ++ (BitVec.ofNat 8 e ++ BitVec.ofNat 23 f)

/-- The five classes of rule R120. -/
inductive F32Class where
  | zero | subnormal | normal | infinity | nan
  deriving DecidableEq, Repr

/-- The class of a pattern (R120). -/
def classify (x : Word) : F32Class :=
  if biasedExp x = 0 then (if fraction x = 0 then .zero else .subnormal)
  else if biasedExp x = 255 then (if fraction x = 0 then .infinity else .nan)
  else .normal

/-- `is_nan` (R122). -/
def isNaN (x : Word) : Bool := classify x == .nan

/-- `is_inf` (R122). -/
def isInf (x : Word) : Bool := classify x == .infinity

/-- `is_zero` (R122). -/
def isZero (x : Word) : Bool := classify x == .zero

/-- `is_finite`: zeros, subnormals and normals (R120, R122). -/
def isFinite (x : Word) : Bool := biasedExp x != 255

/-- The zero with sign `s` (R122). -/
def zeroOf (s : Bool) : Word := packF32 s 0 0

/-- The infinity with sign `s` (R122). -/
def infOf (s : Bool) : Word := packF32 s 255 0

/-- The canonical quiet NaN `QNAN` (R122, R125). -/
def qnan : Word := 0x7FC00000

/-- `1.0` (R122). -/
def f32One : Word := 0x3F800000

/-- `32767.0` (R122). -/
def f32Max16 : Word := 0x46FFFE00

/-- `-32768.0` (R122). -/
def f32Min16 : Word := 0xC7000000

/-- The integer significand of a finite pattern: `f`, or `2^23 + f` when normal (R121). -/
def significand (x : Word) : Nat := if biasedExp x = 0 then fraction x else 2 ^ 23 + fraction x

/-- `|val x|` times `2^149`, an integer for every finite pattern: `2^(e - 150)` is `2^(e - 1)` over `2^149`, and a zero or
subnormal has the scale of `e = 1` (R121). -/
def scaledMag (x : Word) : Nat := significand x * 2 ^ (biasedExp x - 1)

/-- `val x` times `2^149` for a finite pattern (R121). -/
def scaled (x : Word) : Int := if signBit x then -(scaledMag x : Int) else (scaledMag x : Int)

/-- The exact value of a finite pattern (R121). -/
def val (x : Word) : ℚ := (scaled x : ℚ) / 2 ^ 149

/-- `trunc(q)`: the fractional part discarded, toward zero (R10). -/
def truncRat (q : ℚ) : ℤ := if 0 ≤ q then ⌊q⌋ else ⌈q⌉

/-- The comparison `x > c` of rule R123. Finite patterns have the common denominator `2^149`. -/
def fgt (x c : Word) : Bool :=
  if isNaN x || isNaN c then false
  else if isInf x then !signBit x && !(isInf c && !signBit c)
  else if isInf c then signBit c
  else decide (scaled c < scaled x)

/-- The comparison `x < c` of rule R123. -/
def flt (x c : Word) : Bool := fgt c x

/-- `E + 126` for `|q| = n / d`: `E = max(floor(log2 |q|), -126)` (R124), and for a real number at least 1 the floor of
its logarithm is that of its integer part. -/
def roundExp (n d : Nat) : Nat := Nat.log2 (n * 2 ^ 126 / d)

/-- The quotient `a / b` rounded to the nearest integer, up when the remainder is above one half, or is one half and the
integer part is odd (R124). -/
def divNearestEven (a b : Nat) : Nat :=
  if b < 2 * (a % b) ∨ (2 * (a % b) = b ∧ a / b % 2 = 1) then a / b + 1 else a / b

/-- The rounded significand `M` of rule R124, before the test for `2^24`: `m = |q| / u` with `u = 2^(E - 23)`, so
`m = n * 2^149 / (d * 2^(E + 126))`. -/
def roundSig (n d : Nat) : Nat := divNearestEven (n * 2 ^ 149) (d * 2 ^ roundExp n d)

/-- The last lines of rule R124 for `E = k - 126`: infinity when `E > 127`, the zero or subnormal pattern when
`M < 2^23`, else the normal pattern. -/
def encodeRounded (s : Bool) (k m : Nat) : Word :=
  if 253 < k then infOf s
  else if m < 2 ^ 23 then packF32 s 0 m
  else packF32 s (k + 1) (m - 2 ^ 23)

/-- `M = 2^24` becomes `M = 2^23` with `E + 1` (R124). -/
def renormalise (s : Bool) (k m : Nat) : Word :=
  if m = 2 ^ 24 then encodeRounded s (k + 1) (2 ^ 23) else encodeRounded s k m

/-- `round32(q, z)` for the exact rational `q = num / den`, `den > 0`: nearest, ties to even (R124). -/
def round32 (num : Int) (den : Nat) (z : Bool) : Word :=
  if num = 0 then zeroOf z
  else renormalise (decide (num < 0)) (roundExp num.natAbs den) (roundSig num.natAbs den)

/-- `fmul32`, its tests in the order of rule R126. -/
def fmul32 (a b : Word) : Word :=
  if isNaN a || isNaN b then qnan
  else if (isInf a && isZero b) || (isZero a && isInf b) then qnan
  else if isInf a || isInf b then infOf (signBit a ^^ signBit b)
  else round32 (scaled a * scaled b) (2 ^ 298) (signBit a ^^ signBit b)

/-- `fadd32`, its tests in the order of rule R128. An exact zero sum is `-0.0` only for two `-0.0` operands: two equal
signs with a zero sum are two zeros of that sign. -/
def fadd32 (a b : Word) : Word :=
  if isNaN a || isNaN b then qnan
  else if isInf a && isInf b then (if signBit a == signBit b then a else qnan)
  else if isInf a then a
  else if isInf b then b
  else round32 (scaled a + scaled b) (2 ^ 149) (signBit a && signBit b)

/-- `i16_to_f32` (R130). -/
def i16ToF32 (x : Half) : Word := round32 x.toInt 1 false

/-- `trunc(val x)` of a finite pattern: the quotient rounded toward zero (R10, R131). -/
def truncVal (x : Word) : Int := (scaled x).tdiv (2 ^ 149)

/-- `f32_to_i16_sat` (R103): NaN gives the parameter (R104); then the two clamps; then truncation. The rows for the
infinities in the pseudocode are what the comparisons of rule R123 give (R105). -/
def f32ToI16Sat (nanResult : Half) (x : Word) : Half :=
  if isNaN x then nanResult
  else if fgt x f32Max16 then 32767#16
  else if flt x f32Min16 then BitVec.ofInt 16 (-32768)
  else BitVec.ofInt 16 (truncVal x)

end Sys2Proof.Machine
end

