-- ==== Sys2Proof/Config.lean ====
section
/-! DEFINITION. The open parameters of the block (R8, R9, R104): constants without a body, so that nothing can be proved of
their values beyond the constraint the spec puts on them. -/

namespace Sys2Proof

/-- The fields of a FINITE binary32 pattern: the biased exponent is below 255 (R120). -/
structure FiniteF32 where
  sign : Bool
  exponent : Fin 255
  frac : BitVec 23
  deriving DecidableEq, Repr, Inhabited

/-- The coefficient table `COEFF`, an open parameter: finite patterns, nothing else is known of them (R8, log entry 1). -/
opaque Config.coeff : Fin tapCount → FiniteF32

/-- `TOINT_NAN`, an open parameter (R104, log entry 2). -/
opaque Config.toIntNan : Half

/-- The table as 50 patterns: what the coefficient ROM holds (R25). -/
def Config.coeffTable : Vector Word tapCount :=
  Vector.ofFn fun k => Machine.packF32 (Config.coeff k).sign (Config.coeff k).exponent.val (Config.coeff k).frac.toNat

end Sys2Proof
end

