-- ==== Sys2Proof/Machine/State.lean ====
section
/-! DEFINITION. The state of one block as plain data, the reasons a step can stop, and the state after reset
(10_state.md R20 to R32, 30_encoding.md R60, R64). -/

namespace Sys2Proof.Machine

/-- A response `{err, data}` (R64). -/
structure Response where
  err : Bool
  data : Word
  deriving DecidableEq, Repr

/-- The block's input signals at one rising edge of `clk` (R60). -/
structure ClockEdge where
  rst : Bool
  cmdValid : Bool
  cmdWord : CommandWord
  rspReady : Bool
  deriving DecidableEq, Repr

/-- The state of one block and of its ports. -/
structure State where
  /-- `history[0..49]` (R21). -/
  history : Vector Word tapCount
  /-- `writeCursor`: a type that cannot hold 50 to 63 (R23, R24). -/
  writeCursor : Fin tapCount
  /-- The response that has not been transferred yet, at most one (R30, R65). -/
  response : Option Response
  /-- The constant table `COEFF[0..49]` (R25); no step changes it (log entry 1). -/
  coeff : Vector Word tapCount
  /-- The constant `TOINT_NAN` (R104); no step changes it (log entry 2). -/
  toIntNan : Half
  /-- The MODEL'S OWN field: the input signals at the coming rising edges, next first (log entry 4). -/
  edges : List ClockEdge
  /-- The MODEL'S OWN field: the responses transferred to the host so far, oldest first (log entry 5). -/
  taken : List Response
  deriving DecidableEq, Repr

/-- No step of this block stops with a fault: "this component has no failure modes" (R89), and no exception but the
illegal command's response exists (R141). Nothing raises a fault; the empty type is safe. -/
inductive Fault where
  deriving DecidableEq, Repr

/-- Why an instruction would have no meaning. -/
inductive Refusal where
  /-- An instruction that is not modelled yet, by its mnemonic: raised by an arm of exec only, and no arm raises it now.
  Safe: the machine stops where the hardware goes on. -/
  | notModelled (mnemonic : String)
  deriving DecidableEq, Repr

/-- The state after reset (R32): every slot `+0.0`, the cursor 0, no response pending, the constants at their
parameters' values, no input placed. -/
def State.reset : State where
  history := Vector.replicate tapCount 0#32
  writeCursor := 0
  response := none
  coeff := Config.coeffTable
  toIntNan := Config.toIntNan
  edges := []
  taken := []

end Sys2Proof.Machine
end

