-- ==== Sys2Proof/Machine/Flags.lean ====
section
/-! DEFINITION. There are no flags, condition codes or floating-point status bits (10_state.md R28, 42_float_numerics.md
R132); the one status bit anywhere is `err` of a response (30_encoding.md R64). -/

namespace Sys2Proof.Machine

/-- The response of a defined command: `err = 0` (R64). -/
def okResponse (data : Word) : Response := { err := false, data := data }

/-- The response of an illegal command: `err = 1`, `data = 0x00000000` (R64, R140). -/
def illegalResponse : Response := { err := true, data := 0#32 }

/-- The response word `rsp_word = {err, data}` (R64). -/
def Response.word (r : Response) : ResponseWord := BitVec.ofBool r.err ++ r.data

end Sys2Proof.Machine
end

