-- ==== Sys2Proof/Machine/Operands.lean ====
section
/-! DEFINITION. How a command's operand is read and how a result is placed in `data` (30_encoding.md R63, R67). -/

namespace Sys2Proof.Machine

/-- Format F: the operand is `arg` itself, nothing is canonicalised on the way in (R67). -/
def operandF (arg : Word) : Word := arg

/-- Format H: the integer `signed(arg[15:0])` (R67, R100). -/
def operandH (sample : Half) : Int := sample.toInt

/-- An `f32` result is placed in `data` as its pattern (R67). -/
def dataOfF32 (x : Word) : Word := x

/-- An `i16` result r is placed as `sext_32(r)` (R64, R67). -/
def dataOfI16 (r : Half) : Word := r.signExtend 32

end Sys2Proof.Machine
end

