-- ==== Sys2Proof/Machine/Ops.lean ====
section
/-! DEFINITION. The operations the commands share: reading slots and coefficients, the cursor, storing a sample, clearing,
the dot product, responding, the one exception, reset, and what happens on the two channels. -/

namespace Sys2Proof.Machine

/-- `history[i mod N]`: every index is reduced mod N first (R40). -/
def State.slot (s : State) (i : Nat) : Word := s.history[i % tapCount]'(Nat.mod_lt i (by decide))

/-- `COEFF[k mod N]` (R25, R40). -/
def State.coefficient (s : State) (k : Nat) : Word := s.coeff[k % tapCount]'(Nat.mod_lt k (by decide))

/-- The sample pushed `k` pushes ago: slot `(writeCursor + N - 1 - k) mod N`, for `k` below N (R22, R84). -/
def State.window (s : State) (k : Nat) : Word := s.slot (s.writeCursor.val + tapCount - 1 - k)

/-- `(writeCursor + 1) mod N` (R82, R88). -/
def advance (c : Fin tapCount) : Fin tapCount := ⟨(c.val + 1) % tapCount, Nat.mod_lt _ (by decide)⟩

/-- Store a sample at the cursor, then advance the cursor (R82, R83). -/
def State.storeSample (s : State) (x : Word) : State :=
  { s with history := s.history.set s.writeCursor.val x s.writeCursor.isLt, writeCursor := advance s.writeCursor }

/-- Every slot `+0.0` and the cursor 0 (R80). -/
def State.clearHistory (s : State) : State :=
  { s with history := Vector.replicate tapCount 0#32, writeCursor := 0 }

/-- The accumulator after taps 0 to k-1, in ascending order from `+0.0`, each product and each sum rounded (R84). -/
def accumulate (c h : Nat → Word) : Nat → Word
  | 0 => 0#32
  | k + 1 => fadd32 (accumulate c h k) (fmul32 (c k) (h k))

/-- The dot product of PRODUCE (R84). -/
def State.dotProduct (s : State) : Word := accumulate s.coefficient s.window tapCount

/-- `respond`: the response waits for its transfer (R12, R30). -/
def State.respond (s : State) (r : Response) : State := { s with response := some r }

/-- `raise IllegalCommand(op)`: the block's one exception, a response and nothing else (R140). The opcode plays no part.
There is no trap entry, and so no return from one (R145, R146). -/
def State.raiseIllegalCommand (s : State) (_op : BitVec 3) : State := s.respond illegalResponse

/-- A rising edge with `rst = 1`: the reset state; a pending response is discarded; the constants stay (R160, R161). -/
def State.resetBlock (s : State) : State :=
  { s with history := Vector.replicate tapCount 0#32, writeCursor := 0, response := none }

/-- The pending response is transferred to the host (R61, R65). -/
def State.deliver (s : State) : State := { s with response := none, taken := s.taken ++ s.response.toList }

/-- `cmd_ready` at an edge: low during reset and while a response is waiting (R65, R160). -/
def State.cmdReady (s : State) (e : ClockEdge) : Bool := !e.rst && s.response.isNone

/-- `rsp_valid` at an edge: low during reset, else whether a response is waiting (R30, R160). -/
def State.rspValid (s : State) (e : ClockEdge) : Bool := !e.rst && s.response.isSome

/-- `rsp_word`, where there is one (R64). -/
def State.rspWord (s : State) : Option ResponseWord := s.response.map Response.word

/-- A command word is transferred at this edge: `cmd_valid` and `cmd_ready` are both 1 and `rst` is 0 (R61). -/
def State.cmdTransfer (s : State) (e : ClockEdge) : Bool := e.cmdValid && s.cmdReady e && !e.rst

/-- A response word is transferred at this edge (R61). -/
def State.rspTransfer (s : State) (e : ClockEdge) : Bool := s.rspValid e && e.rspReady && !e.rst

/-- An edge at which the host offers one command word and takes no response. -/
def offerEdge (w : CommandWord) : ClockEdge := { rst := false, cmdValid := true, cmdWord := w, rspReady := false }

/-- An edge at which the host is ready for a response and offers nothing. -/
def takeEdge : ClockEdge := { rst := false, cmdValid := false, cmdWord := 0, rspReady := true }

/-- An edge with `rst = 1`. -/
def resetEdge : ClockEdge := { rst := true, cmdValid := false, cmdWord := 0, rspReady := false }

/-- The command word is offered at the next edge, and no response stands in its way (log entry 6). -/
def State.placeCommand (s : State) (w : CommandWord) : State :=
  { s with response := none, edges := offerEdge w :: s.edges }

end Sys2Proof.Machine
end

