-- ==== Sys2Proof/Machine/Conversion.lean ====
section
/-! DEFINITION. The Sample Conversion commands TOFLOAT and TOINT (41_conversion.md). -/

namespace Sys2Proof.Machine

/-- TOFLOAT (R101); `arg[31:16]` is ignored (R67). -/
def execToFloat (_ignored sample : Half) (s : State) : Host.Outcome State Fault Refusal :=
  .next (s.respond (okResponse (dataOfF32 (i16ToF32 sample))))

/-- TOINT (R103 to R105). -/
def execToInt (sample : Word) (s : State) : Host.Outcome State Fault Refusal :=
  .next (s.respond (okResponse (dataOfI16 (f32ToI16Sat s.toIntNan (operandF sample)))))

end Sys2Proof.Machine
end

