-- ==== Sys2Proof/Machine/FilterCore.lean ====
section
/-! DEFINITION. The Filter Core commands INIT, PUSH and PRODUCE (40_filter_core.md). -/

namespace Sys2Proof.Machine

/-- INIT (R80); `arg` is ignored (R68). -/
def execInit (_ignored : Word) (s : State) : Host.Outcome State Fault Refusal :=
  .next (s.clearHistory.respond (okResponse 0#32))

/-- PUSH (R82, R83). -/
def execPush (sample : Word) (s : State) : Host.Outcome State Fault Refusal :=
  .next ((s.storeSample (operandF sample)).respond (okResponse 0#32))

/-- PRODUCE (R84); `arg` is ignored (R68), and no state but the response is written. -/
def execProduce (_ignored : Word) (s : State) : Host.Outcome State Fault Refusal :=
  .next (s.respond (okResponse (dataOfF32 s.dotProduct)))

end Sys2Proof.Machine
end

