-- ==== Sys2Proof/Machine/Illegal.lean ====
section
/-! DEFINITION. The illegal commands (60_exceptions.md R140): each raises the block's one exception. -/

namespace Sys2Proof.Machine

/-- A command with opcode 0 (R140). -/
def execIllegalZero (_arg : Word) (s : State) : Host.Outcome State Fault Refusal :=
  .next (s.raiseIllegalCommand 0#3)

/-- A command with opcode 6 or 7 (R140). -/
def execIllegalHigh (op : BitVec 3) (_arg : Word) (s : State) : Host.Outcome State Fault Refusal :=
  .next (s.raiseIllegalCommand op)

end Sys2Proof.Machine
end

