-- ==== Sys2Proof/Machine/Dispatch.lean ====
section
/-! DEFINITION. One arm per command. -/

namespace Sys2Proof.Machine

def exec (i : Instr) (s : State) : Host.Outcome State Fault Refusal :=
  match i with
  | .init ignored => Sys2Proof.Machine.execInit ignored s
  | .push sample => Sys2Proof.Machine.execPush sample s
  | .produce ignored => Sys2Proof.Machine.execProduce ignored s
  | .toFloat ignored sample => Sys2Proof.Machine.execToFloat ignored sample s
  | .toInt sample => Sys2Proof.Machine.execToInt sample s
  | .illegalZero arg => Sys2Proof.Machine.execIllegalZero arg s
  | .illegalHigh op arg => Sys2Proof.Machine.execIllegalHigh op arg s

end Sys2Proof.Machine
end

