-- ==== Sys2Proof/Machine/Channel.lean ====
section
/-! DEFINITION. What the block does at one rising edge of `clk` (30_encoding.md R60, R61, R65; 70_reset_and_hazards.md
R160, R161, R175). -/

namespace Sys2Proof.Machine

/-- One rising edge with the given input signals. Reset wins over every transfer (R144); a waiting response is transferred
when the host is ready, and until then no command is (R65); a transferred command is executed at once and whole (R47). -/
def edgeStep (e : ClockEdge) (s : State) : Host.Outcome State Fault Refusal :=
  if e.rst then .next s.resetBlock
  else if s.rspTransfer e then .next s.deliver
  else if s.cmdTransfer e then exec (decode e.cmdWord) s
  else .next s

/-- The next edge of the host's schedule; where none is placed the host offers nothing and the state stays (R150). -/
def nextEdge (s : State) : Host.Outcome State Fault Refusal :=
  match s.edges with
  | [] => .next s
  | e :: rest => edgeStep e { s with edges := rest }

end Sys2Proof.Machine
end

