-- ==== Sys2Proof/Machine/Step.lean ====
section
/-! DEFINITION. One step: one rising edge of `clk`. -/

namespace Sys2Proof.Machine

def step (s : State) : Host.Outcome State Fault Refusal := nextEdge s

/-- The word, as the table numbers its bits, offered at the next edge: the bits above `nbits` are zero, and a command word
has 35 bits (R62). -/
def State.withFetchWord (s : State) (nbits w : Nat) : State := s.placeCommand (BitVec.ofNat 35 (w % 2 ^ nbits))

end Sys2Proof.Machine
end

