-- ==== Sys2Proof/Machine/Blocks.lean ====
section
/-! DEFINITION. Several blocks side by side: no shared state and no signal between them (20_memory.md R48,
60_exceptions.md R149). The field `coeff` is the same constant in each block of one build; that is a premise on the list,
not a shared store. -/

namespace Sys2Proof.Machine

/-- One step of block `n`; every other block stays. -/
def stepBlock (n : Nat) (blocks : List State) : Option (List State) :=
  match blocks[n]? with
  | none => some blocks
  | some s =>
    match step s with
    | .next t => some (blocks.set n t)
    | .fault _ => none
    | .refused _ => none

/-- Steps of blocks in the order of an interleaving. -/
def runBlocks : List Nat → List State → Option (List State)
  | [], blocks => some blocks
  | n :: rest, blocks =>
    match stepBlock n blocks with
    | some blocks' => runBlocks rest blocks'
    | none => none

/-- Steps of one block alone. -/
def runAlone : Nat → State → Option State
  | 0, s => some s
  | k + 1, s =>
    match step s with
    | .next t => runAlone k t
    | .fault _ => none
    | .refused _ => none

end Sys2Proof.Machine
end

