-- ==== Sys2Proof/Machine/Assembler.lean ====
section
/-! DEFINITION. The listing language of the host: commands, the `$` operand, the pseudo-instructions FILTER and SAMPLE, and
the text of a line (30_encoding.md R72, R73). None of it is hardware: the block sees the words only. -/

namespace Sys2Proof.Machine

/-- An `<f32>` operand: a pattern, or `$`, the `data` of the most recent response (R72). -/
inductive FloatArg where
  | bits (x : Word)
  | last
  deriving DecidableEq, Repr

/-- An `<i16>` operand: a pattern, or `$` (R72). -/
inductive IntArg where
  | bits (x : Half)
  | last
  deriving DecidableEq, Repr

/-- The five commands of a listing (R72). -/
inductive AsmCommand where
  | init
  | push (x : FloatArg)
  | produce
  | toFloat (x : IntArg)
  | toInt (x : FloatArg)
  deriving DecidableEq, Repr

/-- A line: a command or a pseudo-instruction (R73). -/
inductive AsmLine where
  | command (c : AsmCommand)
  | filter (x : FloatArg)
  | sample (x : IntArg)
  deriving DecidableEq, Repr

/-- What a line expands to (R73). -/
def AsmLine.expand : AsmLine → List AsmCommand
  | .command c => [c]
  | .filter x => [.push x, .produce]
  | .sample x => [.toFloat x, .push .last, .produce, .toInt .last]

/-- The value of an `<f32>` operand; `$` has none before the first response (log entry 13). -/
def FloatArg.value (last : Option Word) : FloatArg → Option Word
  | .bits x => some x
  | .last => last

/-- The operand word of an `<i16>` operand: ignored bits zero, and `$` is the whole `data` (R72). -/
def IntArg.value (last : Option Word) : IntArg → Option Word
  | .bits x => some (x.zeroExtend 32)
  | .last => last

/-- The instruction a command denotes, given the `data` of the most recent response; ignored bits zero (R72). -/
def AsmCommand.instr (last : Option Word) : AsmCommand → Option Instr
  | .init => some (.init 0#32)
  | .push x => (x.value last).map .push
  | .produce => some (.produce 0#32)
  | .toFloat x => (x.value last).map fun d => .toFloat (argHigh d) (argLow d)
  | .toInt x => (x.value last).map .toInt

/-- The command word a command is sent as (R72). -/
def AsmCommand.word (last : Option Word) (c : AsmCommand) : Option CommandWord := (c.instr last).map encode

/-! The text of a line. -/

/-- White space between tokens (log entry 13). -/
def isBlank (c : Char) : Bool := c == ' ' || c == '\t' || c == '\r'

/-- `;` starts a comment (R72). -/
def stripComment (cs : List Char) : List Char := cs.takeWhile (· != ';')

/-- The tokens of a text, the one being read held reversed. -/
def tokensFrom : List Char → List Char → List (List Char)
  | [], cur => if cur.isEmpty then [] else [cur.reverse]
  | c :: cs, cur =>
    if isBlank c then (if cur.isEmpty then tokensFrom cs [] else cur.reverse :: tokensFrom cs [])
    else tokensFrom cs (c :: cur)

/-- Upper case of a letter: mnemonics are case-insensitive (R72). -/
def upperCase (c : Char) : Char := if 'a' ≤ c ∧ c ≤ 'z' then Char.ofNat (c.toNat - 32) else c

/-- A decimal digit. -/
def decDigit (c : Char) : Option Nat := if '0' ≤ c ∧ c ≤ '9' then some (c.toNat - 48) else none

/-- A hexadecimal digit. -/
def hexDigit (c : Char) : Option Nat :=
  if '0' ≤ c ∧ c ≤ '9' then some (c.toNat - 48)
  else if 'a' ≤ c ∧ c ≤ 'f' then some (c.toNat - 87)
  else if 'A' ≤ c ∧ c ≤ 'F' then some (c.toNat - 55)
  else none

/-- A run of digits in a base, after the value read so far. -/
def digitsFrom (base : Nat) (digit : Char → Option Nat) : List Char → Nat → Option Nat
  | [], n => some n
  | c :: cs, n =>
    match digit c with
    | some d => digitsFrom base digit cs (n * base + d)
    | none => none

/-- One or more decimal digits. -/
def decNumber (cs : List Char) : Option Nat := if cs.isEmpty then none else digitsFrom 10 decDigit cs 0

/-- `0x` and exactly `count` hexadecimal digits (R72). -/
def hexLiteral (count : Nat) : List Char → Option Nat
  | '0' :: 'x' :: cs => if cs.length = count then digitsFrom 16 hexDigit cs 0 else none
  | _ => none

/-- The sign of a numeral and the rest of it. -/
def splitSign : List Char → Bool × List Char
  | '-' :: cs => (true, cs)
  | '+' :: cs => (false, cs)
  | cs => (false, cs)

/-- The text before the first character of a kind, and the text after it where there is one. -/
def splitAtChar (p : Char → Bool) : List Char → List Char × Option (List Char)
  | [] => ([], none)
  | c :: cs => if p c then ([], some cs) else (c :: (splitAtChar p cs).1, (splitAtChar p cs).2)

/-- A decimal integer, signed. -/
def signedNumber (cs : List Char) : Option Int :=
  (decNumber (splitSign cs).2).map fun n => if (splitSign cs).1 then -(n : Int) else (n : Int)

/-- The binary32 nearest to `(-1)^neg * digits * 10^exponent`, ties to even (R72, R124). -/
def nearestDecimal (neg : Bool) (digits : Nat) (exponent : Int) : Word :=
  round32 (if neg then -((digits * 10 ^ exponent.toNat : Nat) : Int) else ((digits * 10 ^ exponent.toNat : Nat) : Int))
    (10 ^ (-exponent).toNat) neg

/-- A decimal numeral with a point or an exponent (R72, log entry 13). -/
def decimalFloat (cs : List Char) : Option Word :=
  match splitAtChar (fun c => c == 'e' || c == 'E') (splitSign cs).2 with
  | (mantissa, exponent) =>
    match splitAtChar (· == '.') mantissa, exponent with
    | (_, none), none => none
    | (whole, none), some e =>
      match decNumber whole, signedNumber e with
      | some n, some x => some (nearestDecimal (splitSign cs).1 n x)
      | _, _ => none
    | (whole, some part), none =>
      match decNumber whole, decNumber part, decNumber (whole ++ part) with
      | some _, some _, some n => some (nearestDecimal (splitSign cs).1 n (-(part.length : Int)))
      | _, _, _ => none
    | (whole, some part), some e =>
      match decNumber whole, decNumber part, decNumber (whole ++ part), signedNumber e with
      | some _, some _, some n, some x => some (nearestDecimal (splitSign cs).1 n (x - (part.length : Int)))
      | _, _, _, _ => none

/-- An `<f32>` operand as text (R72). -/
def parseFloatArg (cs : List Char) : Option FloatArg :=
  if cs = ['$'] then some .last
  else if cs = ['i', 'n', 'f'] then some (.bits (infOf false))
  else if cs = ['-', 'i', 'n', 'f'] then some (.bits (infOf true))
  else match hexLiteral 8 cs with
    | some n => some (.bits (BitVec.ofNat 32 n))
    | none => (decimalFloat cs).map .bits

/-- An `<i16>` operand as text: a decimal integer from -32768 to 32767, or `0x` and four digits (R72). -/
def parseIntArg (cs : List Char) : Option IntArg :=
  if cs = ['$'] then some .last
  else match hexLiteral 4 cs with
    | some n => some (.bits (BitVec.ofNat 16 n))
    | none =>
      match signedNumber cs with
      | some n => if -32768 ≤ n ∧ n ≤ 32767 then some (.bits (BitVec.ofInt 16 n)) else none
      | none => none

/-- A command or pseudo-instruction from its tokens, the mnemonic in upper case; PUT and GET are other names of PUSH and
PRODUCE (R72, R73). -/
def parseTokens (mnemonic : List Char) (operand : Option (List Char)) : Option AsmLine :=
  match operand with
  | none =>
    if mnemonic = ['I', 'N', 'I', 'T'] then some (.command .init)
    else if mnemonic = ['P', 'R', 'O', 'D', 'U', 'C', 'E'] ∨ mnemonic = ['G', 'E', 'T'] then some (.command .produce)
    else none
  | some cs =>
    if mnemonic = ['P', 'U', 'S', 'H'] ∨ mnemonic = ['P', 'U', 'T'] then
      (parseFloatArg cs).map fun x => .command (.push x)
    else if mnemonic = ['T', 'O', 'F', 'L', 'O', 'A', 'T'] then (parseIntArg cs).map fun x => .command (.toFloat x)
    else if mnemonic = ['T', 'O', 'I', 'N', 'T'] then (parseFloatArg cs).map fun x => .command (.toInt x)
    else if mnemonic = ['F', 'I', 'L', 'T', 'E', 'R'] then (parseFloatArg cs).map .filter
    else if mnemonic = ['S', 'A', 'M', 'P', 'L', 'E'] then (parseIntArg cs).map .sample
    else none

/-- The tokens of a line, and those of the expected response that may follow `->` (R72). -/
def splitExpected (ts : List (List Char)) : List (List Char) × Option (List (List Char)) :=
  match ts with
  | [] => ([], none)
  | t :: rest => if t = ['-', '>'] then ([], some rest) else (t :: (splitExpected rest).1, (splitExpected rest).2)

/-- `err=<bit> data=<0x8 digits>` (R72): the bit and the data. -/
def parseExpected (ts : List (List Char)) : Option (Bool × Word) :=
  match ts with
  | [['e', 'r', 'r', '=', b], 'd' :: 'a' :: 't' :: 'a' :: '=' :: cs] =>
    match decDigit b, hexLiteral 8 cs with
    | some 0, some n => some (false, BitVec.ofNat 32 n)
    | some 1, some n => some (true, BitVec.ofNat 32 n)
    | _, _ => none
  | _ => none

/-- A line of a listing with the response it expects, where it shows one. -/
structure ListingLine where
  line : AsmLine
  expected : Option (Bool × Word)
  deriving DecidableEq, Repr

/-- The line of a command text; `none` where the text is not one (R72). -/
def parseCommandTokens (ts : List (List Char)) (expected : Option (Bool × Word)) : Option ListingLine :=
  match ts with
  | [m] => (parseTokens (m.map upperCase) none).map fun l => { line := l, expected := expected }
  | [m, x] => (parseTokens (m.map upperCase) (some x)).map fun l => { line := l, expected := expected }
  | _ => none

/-- The text of one line, its comment left out (R72); a text without a command (a blank line) is not one. -/
def parseLine (text : List Char) : Option ListingLine :=
  match splitExpected (tokensFrom (stripComment text) []) with
  | (ts, none) => parseCommandTokens ts none
  | (ts, some e) =>
    match parseExpected e with
    | some r => parseCommandTokens ts (some r)
    | none => none

end Sys2Proof.Machine
end

