-- ==== Sys2Proof/Machine/Driver.lean ====
section
/-! DEFINITION. The host that drives the block: offering words and taking responses, listings, and the streaming loop
(30_encoding.md R61, R65, R72, R73; 70_reset_and_hazards.md R168 to R175). A function answers none only where a listing
uses `$` before the first response. -/

namespace Sys2Proof.Machine

/-- The state after one edge. -/
def edgeNext (e : ClockEdge) (s : State) : Option State :=
  match edgeStep e s with
  | .next t => some t
  | .fault _ => none
  | .refused _ => none

/-- The state after a sequence of edges. -/
def driveEdges : List ClockEdge → State → Option State
  | [], s => some s
  | e :: es, s =>
    match edgeNext e s with
    | some t => driveEdges es t
    | none => none

/-- The command words transferred during a sequence of edges, in the order of transfer (R61). -/
def transferred : List ClockEdge → State → List CommandWord
  | [], _ => []
  | e :: es, s =>
    match edgeNext e s with
    | some t => (if s.cmdTransfer e then [e.cmdWord] else []) ++ transferred es t
    | none => []

/-- One-at-a-time execution: each command, then the transfer of its response (R47, R65, R12). -/
def runCommands : List Instr → State → Option State
  | [], s => some s
  | i :: rest, s =>
    match exec i s with
    | .next t => runCommands rest t.deliver
    | .fault _ => none
    | .refused _ => none

/-- The host offers one word and then takes the response (R61, R175). -/
def send (w : CommandWord) (s : State) : Option State := driveEdges [offerEdge w, takeEdge] s

/-- The `data` of the most recent response: `$` of a listing (R72). -/
def State.lastData (s : State) : Option Word := s.taken.getLast?.map Response.data

/-- Send one command of a listing. -/
def sendCommand (c : AsmCommand) (s : State) : Option State :=
  match c.word s.lastData with
  | some w => send w s
  | none => none

/-- Send commands one after another. -/
def sendCommands : List AsmCommand → State → Option State
  | [], s => some s
  | c :: rest, s =>
    match sendCommand c s with
    | some t => sendCommands rest t
    | none => none

/-- Run the lines of a listing, each expanded (R72, R73). -/
def runListing : List AsmLine → State → Option State
  | [], s => some s
  | l :: rest, s =>
    match sendCommands l.expand s with
    | some t => runListing rest t
    | none => none

/-- The pair a listing shows for a response (R72). -/
def Response.shown (r : Response) : Bool × Word := (r.err, r.data)

/-- Run the lines of a listing, and whether every response it shows is the one that came (R72). DESIGN CHOICE (log entry
13): R72 lets a response be shown after a command; one shown after a FILTER or SAMPLE line is compared with the last
response of the line's expansion. -/
def checkListing : List ListingLine → State → Option (Bool × State)
  | [], s => some (true, s)
  | l :: rest, s =>
    match sendCommands l.line.expand s with
    | none => none
    | some t =>
      match checkListing rest t with
      | none => none
      | some (ok, u) => some ((l.expected.isNone || l.expected == t.taken.getLast?.map Response.shown) && ok, u)

/-- Run commands and read the `data` of the last response. -/
def askCommands (cs : List AsmCommand) (s : State) : Option (Word × State) :=
  match sendCommands cs s with
  | some t => t.lastData.map fun d => (d, t)
  | none => none

/-- TOFLOAT of one input sample (R171). -/
def convertIn (x : Half) (s : State) : Option (Word × State) := askCommands [.toFloat (.bits x)] s

/-- The FILTER sequence for one sample: PUSH, then PRODUCE (R73, R168). -/
def filterSample (x : Word) (s : State) : Option (Word × State) := askCommands (AsmLine.filter (.bits x)).expand s

/-- TOINT of one output sample (R171). -/
def convertOut (y : Word) (s : State) : Option (Half × State) :=
  (askCommands [.toInt (.bits y)] s).map fun r => (argLow r.1, r.2)

/-- The SAMPLE sequence for one integer sample (R73, R171). -/
def processSample (x : Half) (s : State) : Option (Half × State) :=
  (askCommands (AsmLine.sample (.bits x)).expand s).map fun r => (argLow r.1, r.2)

/-- Apply an exchange with the block to each element in order, collecting the results. -/
def mapAccum {α β : Type} (f : α → State → Option (β × State)) : List α → State → Option (List β × State)
  | [], s => some ([], s)
  | x :: xs, s =>
    match f x s with
    | none => none
    | some (y, t) =>
      match mapAccum f xs t with
      | none => none
      | some (ys, u) => some (y :: ys, u)

/-- One chunk of the streaming loop, exactly the samples actually read: convert every sample, then PUSH and PRODUCE for
each, then convert each result back (R172, R173). -/
def processChunk (xs : List Half) (s : State) : Option (List Half × State) :=
  match mapAccum convertIn xs s with
  | none => none
  | some (fs, t) =>
    match mapAccum filterSample fs t with
    | none => none
    | some (ys, u) => mapAccum convertOut ys u

/-- The streaming loop: chunk after chunk until an input read yields zero samples (R172). -/
def processStream : List (List Half) → State → Option (List Half × State)
  | [], s => some ([], s)
  | [] :: _, s => some ([], s)
  | (x :: xs) :: rest, s =>
    match processChunk (x :: xs) s with
    | none => none
    | some (ys, t) =>
      match processStream rest t with
      | none => none
      | some (zs, u) => some (ys ++ zs, u)

end Sys2Proof.Machine
end

