-- ==== Sys2Proof/Safety.lean ====
section
/-! DEFINITION. The terms claims use: what a step executes, the invariants of the state, and the host's obligations, which
the block cannot check and never faults on (70_reset_and_hazards.md section 3). -/

namespace Sys2Proof.Machine

/-- The command that the next step executes, where it executes one (R61). -/
def State.nextCommand (s : State) : Option Instr :=
  match s.edges with
  | [] => none
  | e :: _ => if s.cmdTransfer e then some (decode e.cmdWord) else none

/-- Whether the next step is a reset (R160). -/
def State.nextIsReset (s : State) : Bool :=
  match s.edges with
  | [] => false
  | e :: _ => e.rst

/-- Every coefficient is finite: the one constraint on the table (R8). -/
def State.coeffFinite (s : State) : Prop := ∀ k, k < tapCount → isFinite (s.coefficient k) = true

/-- A pending response with `err = 1` carries no data (R64, R140). -/
def State.responseLegal (s : State) : Prop := ∀ r, s.response = some r → r.err = true → r.data = 0#32

/-- The invariant of a block's state. -/
def State.Inv (s : State) : Prop := s.coeffFinite ∧ s.responseLegal

/-- The exact invariant on `history` (R22): with `log` the operands of the PUSH commands since the last INIT or reset,
oldest first, the sample `k` pushes ago is in its place, and `+0.0` where there is none. -/
def historyHolds (log : List Word) (s : State) : Prop :=
  ∀ k, k < tapCount → s.window k = log.reverse.getD k 0#32

/-- The log after the next step (R22). -/
def logAfter (log : List Word) (s : State) : List Word :=
  if s.nextIsReset then []
  else match s.nextCommand with
    | some (.init _) => []
    | some (.push x) => log ++ [x]
    | _ => log

/-- The three Filter Core commands; the others touch no filter state (R21, R26). -/
def isCoreCommand : Instr → Bool
  | .init _ => true
  | .push _ => true
  | .produce _ => true
  | .toFloat _ _ => false
  | .toInt _ => false
  | .illegalZero _ => false
  | .illegalHigh _ _ => false

/-- The commands that write `history` or `writeCursor` (R21, R23). -/
def writesFilter : Instr → Bool
  | .init _ => true
  | .push _ => true
  | .produce _ => false
  | .toFloat _ _ => false
  | .toInt _ => false
  | .illegalZero _ => false
  | .illegalHigh _ _ => false

/-- The operand of a PUSH (R82). -/
def pushOperand : Instr → Option Word
  | .init _ => none
  | .push x => some x
  | .produce _ => none
  | .toFloat _ _ => none
  | .toInt _ => none
  | .illegalZero _ => none
  | .illegalHigh _ _ => none

/-- Whether a command is PRODUCE (R84). -/
def isProduce : Instr → Bool
  | .init _ => false
  | .push _ => false
  | .produce _ => true
  | .toFloat _ _ => false
  | .toInt _ => false
  | .illegalZero _ => false
  | .illegalHigh _ _ => false

/-- Whether a command is INIT (R80). -/
def isInit : Instr → Bool
  | .init _ => true
  | .push _ => false
  | .produce _ => false
  | .toFloat _ _ => false
  | .toInt _ => false
  | .illegalZero _ => false
  | .illegalHigh _ _ => false

/-- The schedule of a host that offers each word in turn and takes its response (R61, R175). -/
def sendSchedule (ws : List CommandWord) : List ClockEdge := ws.flatMap fun w => [offerEdge w, takeEdge]

/-- Host obligation of rule R61: an offered word is offered unchanged until it is transferred (or a reset comes);
`pending` says whether a response is waiting. -/
def hostKeepsOffers : Bool → List ClockEdge → Bool
  | _, [] => true
  | _, [_] => true
  | pending, e :: f :: rest =>
    (!(e.cmdValid && !e.rst && pending) || f.rst || (f.cmdValid && f.cmdWord == e.cmdWord)) &&
      hostKeepsOffers (!e.rst && ((pending && !e.rspReady) || (!pending && e.cmdValid))) (f :: rest)

/-- Host obligation of rule R168 on a stream of commands: PUSH then PRODUCE, once each, in that order; conversions and
illegal commands may stand between, and INIT begins a new stream (R166). `owed` says whether a PUSH waits for its
PRODUCE. -/
def filterContract : Bool → List Instr → Bool
  | owed, [] => !owed
  | owed, .push _ :: rest => !owed && filterContract true rest
  | owed, .produce _ :: rest => owed && filterContract false rest
  | owed, .init _ :: rest => !owed && filterContract false rest
  | owed, .toFloat _ _ :: rest => filterContract owed rest
  | owed, .toInt _ :: rest => filterContract owed rest
  | owed, .illegalZero _ :: rest => filterContract owed rest
  | owed, .illegalHigh _ _ :: rest => filterContract owed rest

/-- Host obligation of rule R175, on a schedule: some later edge takes the response. -/
def hostTakesResponse (es : List ClockEdge) : Bool := es.any fun e => e.rspReady && !e.rst

end Sys2Proof.Machine
end

