-- ==== Sys2Proof/Certificates/Slice0/Obligations.lean ====
section
/-! DEFINITION. The statements for the provers. -/

open Sys2Proof Sys2Proof.Machine

/-! ## Encoding -/

/-- 30_encoding.md sections 2, 4, 5: decoding an encoded command gives it back, with every operand bit. -/
def Obligations.DecodeOfEncode : Prop :=
  ∀ i : Instr, i.wellFormed = true → decode (encode i) = i

/-- Rule R70 for the first clause: every 35-bit word is a command, one of the five or illegal, and the decoder is
total. That encoding it again gives the word back is the model's choice of syntax, which keeps the ignored operand
bits (DESIGN CHOICE, log entry 9). -/
def Obligations.EncodeOfDecode : Prop :=
  ∀ w : CommandWord, (decode w).wellFormed = true ∧ encode (decode w) = w

/-- Rule R66: the opcode numbers, looked up in `op` alone; the all-zero word is reserved; and the table of
spec/opcode_table.json has exactly one row for every word, with the mnemonic of its instruction. -/
def Obligations.DecoderFollowsOpcodeMap : Prop :=
  (∀ arg : Word,
    decode (1#3 ++ arg) = .init arg ∧ decode (2#3 ++ arg) = .push arg ∧ decode (3#3 ++ arg) = .produce arg ∧
    decode (4#3 ++ arg) = .toFloat (arg.extractLsb' 16 16) (arg.extractLsb' 0 16) ∧ decode (5#3 ++ arg) = .toInt arg ∧
    decode (0#3 ++ arg) = .illegalZero arg ∧ decode (6#3 ++ arg) = .illegalHigh 6#3 arg ∧
    decode (7#3 ++ arg) = .illegalHigh 7#3 arg) ∧
  (decode 0#35).mnemonic = "ILLEGAL" ∧
  ∀ w : CommandWord, ∃ r ∈ opcodeTable, r.covers w = true ∧ r.mnemonic = (decode w).mnemonic ∧
    ∀ r' ∈ opcodeTable, r'.covers w = true → r' = r

/-- Words written out in 95_test_vectors.md, program P5 and parts V-I to V-X, decode to what they stand for. -/
def Obligations.SpecWordsDecode : Prop :=
  decode 0x1DEADBEEF = .init 0xDEADBEEF ∧ decode 0x240000000 = .push 0x40000000 ∧
  decode 0x3FFFFFFFF = .produce 0xFFFFFFFF ∧ decode 0x4FFFF0001 = .toFloat 0xFFFF 0x0001 ∧
  decode 0x5BF800000 = .toInt 0xBF800000 ∧ decode 0x03F800000 = .illegalZero 0x3F800000 ∧
  decode 0x6FFFFFFFF = .illegalHigh 6 0xFFFFFFFF ∧ decode 0x712345678 = .illegalHigh 7 0x12345678

/-- Rule R68: ignored bits are legal and have no effect, and the assembler writes zeros there. -/
def Obligations.IgnoredBitsHaveNoEffect : Prop :=
  (∀ (w v : CommandWord) (s : State), opField w = opField v → (opField w = 1#3 ∨ opField w = 3#3) →
    exec (decode w) s = exec (decode v) s) ∧
  (∀ (w v : CommandWord) (s : State), opField w = 4#3 → opField v = 4#3 →
    w.extractLsb' 0 16 = v.extractLsb' 0 16 → exec (decode w) s = exec (decode v) s) ∧
  (decode 0x100000000).mnemonic = "INIT" ∧ (decode 0x1DEADBEEF).mnemonic = "INIT" ∧
  (∀ last : Option Word, AsmCommand.init.word last = some 0x100000000#35 ∧
    AsmCommand.produce.word last = some 0x300000000#35 ∧
    ∀ x : Half, (AsmCommand.toFloat (.bits x)).word last = some (4#3 ++ (0#16 ++ x)))

/-- Rules R72 and R73: the encoding of a line is `(op << 32) | arg`; given d as the `data` of the most recent
response, the commands with operand `$` are sent with d as operand word; FILTER and SAMPLE expand to two and four
commands. That TOFLOAT `$` is sent with the whole of d, of which the block reads the low half, is the model's choice
(DESIGN CHOICE, log entry 13). -/
def Obligations.AssemblerEncodesListing : Prop :=
  ∀ (last : Option Word) (d x : Word) (n : Half) (f : FloatArg) (i : IntArg),
    AsmCommand.init.word last = some (BitVec.ofNat 35 (1 * 2 ^ 32)) ∧
    AsmCommand.produce.word last = some (BitVec.ofNat 35 (3 * 2 ^ 32)) ∧
    (AsmCommand.push (.bits x)).word last = some (BitVec.ofNat 35 (2 * 2 ^ 32 + x.toNat)) ∧
    (AsmCommand.toInt (.bits x)).word last = some (BitVec.ofNat 35 (5 * 2 ^ 32 + x.toNat)) ∧
    (AsmCommand.toFloat (.bits n)).word last = some (BitVec.ofNat 35 (4 * 2 ^ 32 + n.toNat)) ∧
    (AsmCommand.push .last).word (some d) = some (2#3 ++ d) ∧
    (AsmCommand.toFloat .last).word (some d) = some (4#3 ++ d) ∧
    (AsmCommand.toInt .last).word (some d) = some (5#3 ++ d) ∧
    (AsmLine.filter f).expand = [.push f, .produce] ∧
    (AsmLine.sample i).expand = [.toFloat i, .push .last, .produce, .toInt .last]

/-! ## One clock edge -/

/-- Rules R61 and R65 (the schedule of edges is the model's, log entries 3 and 4): a command word offered while no
response waits is executed by that step, whole, on the state with the edge used up; and `withFetchWord` places a word
so. -/
def Obligations.StepExecutesTransferredCommand : Prop :=
  (∀ (s : State) (e : ClockEdge) (rest : List ClockEdge) (i : Instr),
    s.edges = e :: rest → e.rst = false → e.cmdValid = true → s.response = none →
    decode e.cmdWord = i → i.wellFormed = true →
    step s = exec i { s with edges := rest }) ∧
  ∀ (s : State) (n : Nat), step (s.withFetchWord 35 n) = exec (decode (BitVec.ofNat 35 n)) { s with response := none }

/-- Rule R160: an edge with `rst = 1` gives the reset state, which is the state INIT leaves; nothing is transferred at it,
and the next edge with `rst = 0` can take a command. -/
def Obligations.ResetEdgeGivesResetState : Prop :=
  ∀ (s : State) (e : ClockEdge) (rest : List ClockEdge), s.edges = e :: rest → e.rst = true →
    ∃ t, step s = .next t ∧
      t = { s with history := State.reset.history, writeCursor := 0, response := none, edges := rest } ∧
      (∀ i, i < 50 → t.history[i]! = 0#32) ∧
      s.cmdReady e = false ∧ s.rspValid e = false ∧ s.cmdTransfer e = false ∧ s.rspTransfer e = false ∧
      (∀ f : ClockEdge, f.rst = false → t.cmdReady f = true) ∧
      ∀ a : Word, ∃ u, exec (.init a) s = .next u ∧ u.history = t.history ∧ u.writeCursor = t.writeCursor

/-- Rule R161: a pending response is discarded, a word on the channel is not executed, and a reset directly after a
command leaves what the reset alone would have left. -/
def Obligations.ResetDiscardsWorkInProgress : Prop :=
  ∀ (s : State) (e f : ClockEdge) (rest : List ClockEdge), f.rst = true →
    (s.edges = f :: rest → ∃ t, step s = .next t ∧ t.response = none ∧ t.taken = s.taken ∧
      step { s with edges := resetEdge :: rest } = .next t) ∧
    (s.edges = e :: f :: rest → s.cmdTransfer e = true →
      ∃ t u, step s = .next t ∧ step t = .next u ∧ step { s with edges := f :: rest } = .next u)

/-- Rules R65 and R175: while a response waits and the host does not take it, `cmd_ready` is low, nothing is executed and
the state is kept. -/
def Obligations.PendingResponseHoldsTheBlock : Prop :=
  ∀ (s : State) (e : ClockEdge) (rest : List ClockEdge) (r : Response),
    s.edges = e :: rest → e.rst = false → s.response = some r → e.rspReady = false →
    s.cmdReady e = false ∧ s.rspValid e = true ∧ step s = .next { s with edges := rest }

/-- Rules R61 and R65 (that no command is taken at the same edge is the model's reading, log entry 7): a waiting response
is transferred at an edge at which the host is ready. -/
def Obligations.ResponseIsTransferred : Prop :=
  ∀ (s : State) (e : ClockEdge) (rest : List ClockEdge) (r : Response),
    s.edges = e :: rest → e.rst = false → s.response = some r → e.rspReady = true →
    step s = .next { s with response := none, taken := s.taken ++ [r], edges := rest }

/-- Rule R150: when no command is offered and no response waits, the state does not change (an empty schedule offers
nothing, log entry 4). -/
def Obligations.IdleKeepsState : Prop :=
  ∀ s : State,
    (s.edges = [] → step s = .next s) ∧
    ∀ (e : ClockEdge) (rest : List ClockEdge), s.edges = e :: rest → e.rst = false → e.cmdValid = false →
      s.response = none → step s = .next { s with edges := rest }

/-- Rules R89 and R141: no step stops, in any state. -/
def Obligations.StepAlwaysAnswersNext : Prop :=
  ∀ s : State, ∃ t, step s = .next t

/-! ## Responses -/

/-- Rule R64: the response word of every command, `err` above `data`. -/
def Obligations.ResponseWordOfEveryCommand : Prop :=
  ∀ (s : State) (a x : Word) (hi n : Half) (op : BitVec 3),
    (∃ t, exec (.init a) s = .next t ∧ t.rspWord = some 0#33) ∧
    (∃ t, exec (.push x) s = .next t ∧ t.rspWord = some 0#33) ∧
    (∃ t, exec (.produce a) s = .next t ∧ t.rspWord = some (0#1 ++ s.dotProduct)) ∧
    (∃ t, exec (.toFloat hi n) s = .next t ∧ t.rspWord = some (0#1 ++ i16ToF32 n)) ∧
    (∃ t, exec (.toInt x) s = .next t ∧ t.rspWord = some (0#1 ++ (f32ToI16Sat s.toIntNan x).signExtend 32)) ∧
    (∃ t, exec (.illegalZero a) s = .next t ∧ t.rspWord = some (1#1 ++ 0#32)) ∧
    (op = 6#3 ∨ op = 7#3 → ∃ t, exec (.illegalHigh op a) s = .next t ∧ t.rspWord = some (1#1 ++ 0#32))

/-- Rules R64, R89, R141: exactly one response per executed command, and `err` is 1 for a reserved opcode only. -/
def Obligations.ErrOnlyForReservedOpcodes : Prop :=
  ∀ (w : CommandWord) (s : State), ∃ t r, exec (decode w) s = .next t ∧ t.response = some r ∧ t.taken = s.taken ∧
    (r.err = true ↔ w.toNat / 2 ^ 32 = 0 ∨ w.toNat / 2 ^ 32 = 6 ∨ w.toNat / 2 ^ 32 = 7)

/-- Rule R140: an illegal command leaves the state, answers `err = 1`, `data = 0`, whatever its `arg`, and leaves no
trace for the next command. -/
def Obligations.IllegalCommandChangesNothing : Prop :=
  ∀ (s : State) (arg : Word),
    exec (.illegalZero arg) s = .next { s with response := some ⟨true, 0#32⟩ } ∧
    (∀ op : BitVec 3, op = 6#3 ∨ op = 7#3 →
      exec (.illegalHigh op arg) s = .next { s with response := some ⟨true, 0#32⟩ }) ∧
    (∀ w : CommandWord, (opField w = 0#3 ∨ opField w = 6#3 ∨ opField w = 7#3) →
      exec (decode w) s = .next { s with response := some ⟨true, 0#32⟩ } ∧
      ∀ j : Instr, s.response = none → runCommands [decode w, j] s =
        runCommands [j] { s with taken := s.taken ++ [⟨true, 0#32⟩] })

/-! ## INIT and PUSH -/

/-- Rule R80: INIT zeroes every slot and the cursor, ignores `arg`, leaves the rest, and gives the filter's reset state. -/
def Obligations.InitClearsHistory : Prop :=
  ∀ (a : Word) (s : State), ∃ t, exec (.init a) s = .next t ∧
    t = { s with history := Vector.replicate 50 0x00000000#32, writeCursor := 0, response := some ⟨false, 0#32⟩ } ∧
    (∀ i, i < 50 → t.history[i]! = 0#32) ∧
    t.history = State.reset.history ∧ t.writeCursor = State.reset.writeCursor

/-- Rules R82 and R83: PUSH stores its operand bit for bit in the slot at the cursor, which held the oldest sample,
changes no other slot, and advances the cursor modulo 50; everything else but the response stays. -/
def Obligations.PushStoresAndAdvances : Prop :=
  ∀ (x : Word) (s : State), ∃ t, exec (.push x) s = .next t ∧
    t.history[s.writeCursor.val]! = x ∧
    (∀ i, i < 50 → i ≠ s.writeCursor.val → t.history[i]! = s.history[i]!) ∧
    t.writeCursor.val = (s.writeCursor.val + 1) % 50 ∧
    t.response = some ⟨false, 0#32⟩ ∧
    t.coeff = s.coeff ∧ t.toIntNan = s.toIntNan ∧ t.edges = s.edges ∧ t.taken = s.taken ∧
    s.history[s.writeCursor.val]! = s.history[(s.writeCursor.val + 50 - 1 - 49) % 50]!

/-- Rule R88: the cursor advance and the read index of PRODUCE, each with one conditional subtraction. -/
def Obligations.IndexArithmeticIsModular : Prop :=
  ∀ (s : State) (x : Word) (k : Nat), k ≤ 49 →
    (∃ t, exec (.push x) s = .next t ∧
      t.writeCursor.val = if s.writeCursor.val = 49 then 0 else s.writeCursor.val + 1) ∧
    s.writeCursor.val + 50 - 1 - k ≤ 98 ∧
    s.window k = s.history[if s.writeCursor.val + 49 - k < 50 then s.writeCursor.val + 49 - k
      else s.writeCursor.val + 49 - k - 50]!

/-- Rules R22, R82, R85: after any pushes, the sample k pushes ago is the k-th from the end of them, or, further back, what
the window held before; so after 50 pushes nothing older is left, wherever the ring wrapped. -/
def Obligations.PushesShiftTheWindow : Prop :=
  ∀ (xs : List Word) (s : State), ∃ t, runCommands (xs.map .push) s = some t ∧
    t.writeCursor.val = (s.writeCursor.val + xs.length) % 50 ∧
    ∀ k, k < 50 → t.window k = if k < xs.length then xs.reverse[k]! else s.window (k - xs.length)

/-! ## PRODUCE -/

/-- Rule R84: PRODUCE returns the dot product, COEFF[k] with the sample pushed k pushes ago, accumulated from `+0.0` in
ascending k, each product and each sum rounded, and writes nothing but the response. -/
def Obligations.ProduceIsDotProduct : Prop :=
  ∀ (a : Word) (s : State),
    exec (.produce a) s = .next { s with response := some ⟨false,
      (List.range 50).foldl (fun acc k =>
        fadd32 acc (fmul32 s.coeff[k]! s.history[(s.writeCursor.val + 50 - 1 - k) % 50]!)) 0x00000000#32⟩ }

/-- Rule R85: PRODUCE depends on the table and on the cursor-relative sequence only, wherever the cursors stand. -/
def Obligations.ProduceDependsOnWindowOnly : Prop :=
  ∀ (a b : Word) (s t : State), s.coeff = t.coeff →
    (∀ k, k < 50 → s.history[(s.writeCursor.val + 50 - 1 - k) % 50]! = t.history[(t.writeCursor.val + 50 - 1 - k) % 50]!) →
    ∃ u v r, exec (.produce a) s = .next u ∧ exec (.produce b) t = .next v ∧ u.response = some r ∧ v.response = some r

/-- Rule R26: PRODUCE leaves the filter as it was, as do TOFLOAT, TOINT and illegal commands, and two PRODUCE commands with
no PUSH, INIT or reset between them return the identical response. -/
def Obligations.ProduceIsIdempotent : Prop :=
  ∀ (s : State) (a b : Word) (between : List Instr), (∀ i ∈ between, writesFilter i = false) →
    ∃ t, runCommands (.produce a :: between ++ [.produce b]) s = some t ∧
      t.history = s.history ∧ t.writeCursor = s.writeCursor ∧
      t.taken.getLast? = t.taken[s.taken.length]? ∧ t.taken.length = s.taken.length + between.length + 2

/-- Rule R86: on an all-zero history PRODUCE returns `+0.0` when every coefficient is finite, so it does straight after
reset or INIT; with a coefficient that is not finite it would return the canonical NaN. -/
def Obligations.ProduceOnZeroHistory : Prop :=
  ∀ (a b : Word) (s : State),
    (s.coeffFinite → (∀ i, i < 50 → s.history[i]! = 0#32) →
      exec (.produce a) s = .next { s with response := some ⟨false, 0#32⟩ }) ∧
    (s.coeffFinite → ∃ t, runCommands [.init b, .produce a] s = some t ∧ t.taken.getLast? = some ⟨false, 0#32⟩) ∧
    exec (.produce a) State.reset = .next { State.reset with response := some ⟨false, 0#32⟩ } ∧
    (¬ s.coeffFinite → (∀ i, i < 50 → s.history[i]! = 0#32) →
      exec (.produce a) s = .next { s with response := some ⟨false, 0x7FC00000#32⟩ })

/-- Rule R87: the impulse response is the coefficient table in index order, bit for bit but for `-0.0` entries, and one
more zero gives `+0.0`. -/
def Obligations.ImpulseResponseIsTheTable : Prop :=
  ∀ s : State, s.coeffFinite →
    ∃ t, runCommands (.init 0#32 ::
        (0x3F800000#32 :: List.replicate 50 0#32).flatMap fun x => [.push x, .produce 0#32]) s = some t ∧
      (∀ j, j < 50 → t.taken[s.taken.length + 2 * j + 2]? =
        some ⟨false, if s.coeff[j]! = 0x80000000#32 then 0#32 else s.coeff[j]!⟩) ∧
      t.taken[s.taken.length + 2 * 50 + 2]? = some ⟨false, 0#32⟩

/-- Rule R90: a NaN in any slot gives the canonical NaN, so does an infinity against a zero coefficient, and an infinite
product decides the sum unless a NaN or an infinity of the other sign enters it. -/
def Obligations.SpecialValuesInProduce : Prop :=
  ∀ (a : Word) (s : State) (sg : Bool) (k : Nat), k < 50 →
    (isNaN (s.window k) = true → exec (.produce a) s = .next { s with response := some ⟨false, 0x7FC00000#32⟩ }) ∧
    (isInf (s.window k) = true → isZero (s.coefficient k) = true →
      exec (.produce a) s = .next { s with response := some ⟨false, 0x7FC00000#32⟩ }) ∧
    (isInf (s.window k) = true → isFinite (s.coefficient k) = true → isZero (s.coefficient k) = false →
      infOf sg = infOf (signBit (s.window k) ^^ signBit (s.coefficient k)) →
      (∀ j, j < 50 → isNaN (fmul32 (s.coefficient j) (s.window j)) = false ∧
        fmul32 (s.coefficient j) (s.window j) ≠ infOf (!sg)) →
      (∀ j, j ≤ 50 → accumulate s.coefficient s.window j ≠ infOf (!sg)) →
      exec (.produce a) s = .next { s with response := some ⟨false, infOf sg⟩ })

/-! ## TOFLOAT and TOINT -/

/-- Rule R101: TOFLOAT returns the float equal to the integer, exact, zero as `+0.0`, and changes nothing but the
response. -/
def Obligations.ToFloatIsExact : Prop :=
  ∀ (hi x : Half) (s : State), ∃ d : Word, exec (.toFloat hi x) s = .next { s with response := some ⟨false, d⟩ } ∧
    val d = (x.toInt : ℚ) ∧ isFinite d = true ∧ d ≠ 0x80000000#32 ∧ classify d ≠ .subnormal ∧ (x = 0#16 → d = 0#32)

/-- Rule R130: the pattern of a converted integer, which is the only finite one with that value when it is not zero. -/
def Obligations.ToFloatPattern : Prop :=
  ∀ (hi x : Half) (s : State),
    exec (.toFloat hi x) s = .next { s with response := some ⟨false, round32 x.toInt 1 false⟩ } ∧
    val (round32 x.toInt 1 false) = (x.toInt : ℚ) ∧
    (x = 0#16 → round32 x.toInt 1 false = 0#32) ∧
    (x ≠ 0#16 →
      Nat.log2 x.toInt.natAbs ≤ 15 ∧
      round32 x.toInt 1 false = packF32 (decide (x.toInt < 0)) (Nat.log2 x.toInt.natAbs + 127)
        (x.toInt.natAbs * 2 ^ (23 - Nat.log2 x.toInt.natAbs) - 2 ^ 23) ∧
      ∀ y : Word, isFinite y = true → val y = (x.toInt : ℚ) → y = round32 x.toInt 1 false)

/-- Rule R102: TOFLOAT is injective and order-preserving, and its image is the integers in range with zero as `+0.0`. -/
def Obligations.ToFloatInjectiveAndMonotone : Prop :=
  (∀ x y : Half, i16ToF32 x = i16ToF32 y → x = y) ∧
  (∀ x y : Half, x.toInt < y.toInt → val (i16ToF32 x) < val (i16ToF32 y)) ∧
  ∀ y : Word, (∃ x : Half, i16ToF32 x = y) ↔
    (isFinite y = true ∧ y ≠ 0x80000000#32 ∧ ∃ n : ℤ, -32768 ≤ n ∧ n ≤ 32767 ∧ val y = (n : ℚ))

/-- Rules R103 and R104: TOINT on every operand: the parameter for a NaN, the two clamps, else truncation toward zero,
sign-extended; nothing but the response changes. -/
def Obligations.ToIntClampsThenTruncates : Prop :=
  ∀ (x : Word) (s : State), ∃ r : ℤ,
    exec (.toInt x) s = .next { s with response := some ⟨false, (BitVec.ofInt 16 r).signExtend 32⟩ } ∧
    (isNaN x = true → r = s.toIntNan.toInt) ∧
    (x = 0x7F800000#32 → r = 32767) ∧ (x = 0xFF800000#32 → r = -32768) ∧
    (isFinite x = true → r = if val x > 32767 then 32767 else if val x < -32768 then -32768 else truncRat (val x)) ∧
    -32768 ≤ r ∧ r ≤ 32767

/-- Rule R104: every NaN pattern gives the same result, the parameter, with `err` 0 and no state change. -/
def Obligations.ToIntOfNaN : Prop :=
  ∀ (x y : Word) (s : State), isNaN x = true → isNaN y = true →
    exec (.toInt x) s = .next { s with response := some ⟨false, s.toIntNan.signExtend 32⟩ } ∧
    exec (.toInt y) s = exec (.toInt x) s

/-- Rule R105: the table of corner cases of TOINT. -/
def Obligations.ToIntCornerCases : Prop :=
  ∀ (x : Word) (s : State),
    exec (.toInt 0x7F800000#32) s = .next { s with response := some ⟨false, 0x00007FFF#32⟩ } ∧
    exec (.toInt 0xFF800000#32) s = .next { s with response := some ⟨false, 0xFFFF8000#32⟩ } ∧
    (isFinite x = true → 32767 < val x → exec (.toInt x) s = .next { s with response := some ⟨false, 0x00007FFF#32⟩ }) ∧
    exec (.toInt 0x46FFFE00#32) s = .next { s with response := some ⟨false, 0x00007FFF#32⟩ } ∧
    exec (.toInt 0x46FFFDFF#32) s = .next { s with response := some ⟨false, 0x00007FFE#32⟩ } ∧
    (isFinite x = true → -1 < val x → val x < 1 → exec (.toInt x) s = .next { s with response := some ⟨false, 0#32⟩ }) ∧
    exec (.toInt 0xC0BCCCCD#32) s = .next { s with response := some ⟨false, 0xFFFFFFFB#32⟩ } ∧
    exec (.toInt 0xC6FFFFFF#32) s = .next { s with response := some ⟨false, 0xFFFF8001#32⟩ } ∧
    exec (.toInt 0xC7000000#32) s = .next { s with response := some ⟨false, 0xFFFF8000#32⟩ } ∧
    (isFinite x = true → val x < -32768 → exec (.toInt x) s = .next { s with response := some ⟨false, 0xFFFF8000#32⟩ }) ∧
    isFinite 0x46FFFE01#32 = true ∧ 32767 < val 0x46FFFE01#32 ∧
    isFinite 0xC7000001#32 = true ∧ val 0xC7000001#32 < -32768

/-- Rule R131: truncation in range is the integer part toward zero, and is a right shift of the significand. -/
def Obligations.TruncationIsAShift : Prop :=
  ∀ x : Word, isFinite x = true → -32768 ≤ val x → val x ≤ 32767 →
    truncVal x = truncRat (val x) ∧ -32768 ≤ truncVal x ∧ truncVal x ≤ 32767 ∧
    (biasedExp x < 127 → truncVal x = 0) ∧
    (127 ≤ biasedExp x → biasedExp x - 127 ≤ 15 ∧
      truncVal x = (if signBit x then -1 else 1) * (((2 ^ 23 + fraction x) >>> (23 - (biasedExp x - 127)) : Nat) : ℤ))

/-- Rule R106: TOINT of TOFLOAT gives the operand back, sign-extended; the other direction holds for the integers in
range other than `-0.0` only. The first clause executes TOINT on the state in which TOFLOAT's response still waits,
which no step does (R65) and to which the model gives a meaning (DESIGN CHOICE, log entry 11). -/
def Obligations.ConversionRoundTrip : Prop :=
  (∀ (hi x : Half) (s : State), ∃ d t, exec (.toFloat hi x) s = .next t ∧ t.response = some ⟨false, d⟩ ∧
    exec (.toInt d) t = .next { t with response := some ⟨false, x.signExtend 32⟩ }) ∧
  ∀ (n : Half) (y : Word), i16ToF32 (f32ToI16Sat n y) = y ↔
    (isFinite y = true ∧ y ≠ 0x80000000#32 ∧ ∃ z : ℤ, -32768 ≤ z ∧ z ≤ 32767 ∧ val y = (z : ℚ))

/-- Rule R107: conversions may stand anywhere in a command sequence: without them (and without illegal commands) the
filter ends in the same state and the Filter Core's responses are the same; and a conversion's response depends on its own
operand and TOINT_NAN alone. -/
def Obligations.ConversionsTouchNothing : Prop :=
  (∀ (cs : List Instr) (s : State), ∃ t u, runCommands cs s = some t ∧ runCommands (cs.filter isCoreCommand) s = some u ∧
    t.history = u.history ∧ t.writeCursor = u.writeCursor ∧
    ((cs.zip (t.taken.drop s.taken.length)).filter fun p => isCoreCommand p.1).map Prod.snd =
      u.taken.drop s.taken.length) ∧
  ∀ (hi n : Half) (x : Word) (s t : State), s.toIntNan = t.toIntNan →
    ∃ u v r u' v' r', exec (.toFloat hi n) s = .next u ∧ exec (.toFloat hi n) t = .next v ∧
      u.response = some r ∧ v.response = some r ∧
      exec (.toInt x) s = .next u' ∧ exec (.toInt x) t = .next v' ∧ u'.response = some r' ∧ v'.response = some r'

/-! ## Floating point -/

/-- Rule R121: the value of a finite pattern, the extreme values, and that distinct finite patterns have distinct values
except the two zeros. -/
def Obligations.ValueOfFinitePattern : Prop :=
  (∀ x : Word, 1 ≤ biasedExp x → biasedExp x ≤ 254 →
    val x = (-1 : ℚ) ^ (signBit x).toNat * (2 ^ 23 + (fraction x : ℚ)) * (2 : ℚ) ^ ((biasedExp x : ℤ) - 150)) ∧
  (∀ x : Word, biasedExp x = 0 →
    val x = (-1 : ℚ) ^ (signBit x).toNat * (fraction x : ℚ) * (2 : ℚ) ^ (-149 : ℤ)) ∧
  val 0x00000000#32 = 0 ∧ val 0x80000000#32 = 0 ∧
  val 0x7F7FFFFF#32 = (2 ^ 24 - 1) * 2 ^ 104 ∧ val 0x00000001#32 = (2 : ℚ) ^ (-149 : ℤ) ∧
  val 0x00800000#32 = (2 : ℚ) ^ (-126 : ℤ) ∧
  (∀ x : Word, isFinite x = true → val x ≤ (2 ^ 24 - 1) * 2 ^ 104 ∧ (0 < val x → (2 : ℚ) ^ (-149 : ℤ) ≤ val x) ∧
    (0 < val x → classify x = .normal → (2 : ℚ) ^ (-126 : ℤ) ≤ val x)) ∧
  ∀ x y : Word, isFinite x = true → isFinite y = true → val x = val y →
    x = y ∨ (isZero x = true ∧ isZero y = true)

/-- Rule R123: the comparisons of TOINT, on every class of operand. -/
def Obligations.ComparisonsFollowValues : Prop :=
  ∀ x c : Word, (c = 0x46FFFE00#32 ∨ c = 0xC7000000#32) →
    (isNaN x = true → fgt x c = false ∧ flt x c = false) ∧
    (x = 0x7F800000#32 → fgt x c = true ∧ flt x c = false) ∧
    (x = 0xFF800000#32 → fgt x c = false ∧ flt x c = true) ∧
    (isFinite x = true → (fgt x c = true ↔ val x > val c) ∧ (flt x c = true ↔ val x < val c)) ∧
    fgt 0x80000000#32 0x00000000#32 = false ∧ flt 0x80000000#32 0x00000000#32 = false

/-- Rule R124: below the overflow threshold, `round32` gives a finite value nearest to the exact one, and on a tie the one
with the even fraction. -/
def Obligations.RoundToNearestEven : Prop :=
  ∀ (num : ℤ) (den : Nat) (z : Bool), 0 < den → |(num : ℚ) / den| < 2 ^ 128 - 2 ^ 103 →
    isFinite (round32 num den z) = true ∧
    ∀ x : Word, isFinite x = true →
      |val (round32 num den z) - (num : ℚ) / den| ≤ |val x - (num : ℚ) / den| ∧
      (val x ≠ val (round32 num den z) →
        |val (round32 num den z) - (num : ℚ) / den| = |val x - (num : ℚ) / den| →
        fraction (round32 num den z) % 2 = 0)

/-- Rule R124: the sign of the result, an exact zero, overflow at `2^128 - 2^103`, and that equal rationals round alike. -/
def Obligations.RoundSignZeroAndOverflow : Prop :=
  (∀ (den : Nat) (z : Bool), round32 0 den z = if z then 0x80000000#32 else 0x00000000#32) ∧
  (∀ (num : ℤ) (den : Nat) (z : Bool), 0 < den → num ≠ 0 → signBit (round32 num den z) = decide (num < 0)) ∧
  (∀ (num : ℤ) (den : Nat) (z : Bool), 0 < den → 2 ^ 128 - 2 ^ 103 ≤ |(num : ℚ) / den| →
    round32 num den z = if num < 0 then 0xFF800000#32 else 0x7F800000#32) ∧
  ∀ (num num' : ℤ) (den den' : Nat) (z : Bool), 0 < den → 0 < den' → (num : ℚ) / den = (num' : ℚ) / den' →
    round32 num den z = round32 num' den' z

/-- Rules R121 and R124: an exact nonzero value of the format rounds to its own pattern. -/
def Obligations.RoundKeepsRepresentable : Prop :=
  ∀ (x : Word) (num : ℤ) (den : Nat) (z : Bool), isFinite x = true → isZero x = false → 0 < den →
    (num : ℚ) / den = val x → round32 num den z = x

/-- Rule R125: NaN operands and invalid operations give the canonical NaN, and no other NaN is ever produced, by PRODUCE
neither. -/
def Obligations.NaNResultsAreCanonical : Prop :=
  (∀ a b : Word, (isNaN a = true ∨ isNaN b = true) → fmul32 a b = 0x7FC00000#32 ∧ fadd32 a b = 0x7FC00000#32) ∧
  (∀ a b : Word, isZero a = true → isInf b = true → fmul32 a b = 0x7FC00000#32 ∧ fmul32 b a = 0x7FC00000#32) ∧
  (∀ a b : Word, isInf a = true → isInf b = true → signBit a ≠ signBit b → fadd32 a b = 0x7FC00000#32) ∧
  (∀ a b : Word, (isNaN (fmul32 a b) = true → fmul32 a b = 0x7FC00000#32) ∧
    (isNaN (fadd32 a b) = true → fadd32 a b = 0x7FC00000#32)) ∧
  ∀ (a : Word) (s : State), ∃ t d, exec (.produce a) s = .next t ∧ t.response = some ⟨false, d⟩ ∧
    (isNaN d = true → d = 0x7FC00000#32)

/-- Rule R126: `fmul32` case by case, and that it is commutative. -/
def Obligations.MultiplicationCases : Prop :=
  ∀ a b : Word,
    ((isNaN a = true ∨ isNaN b = true) → fmul32 a b = qnan) ∧
    (isInf a = true → isZero b = true → fmul32 a b = qnan) ∧
    (isInf a = true → isNaN b = false → isZero b = false → fmul32 a b = infOf (signBit a ^^ signBit b)) ∧
    (∀ (num : ℤ) (den : Nat), isFinite a = true → isFinite b = true → 0 < den → (num : ℚ) / den = val a * val b →
      fmul32 a b = round32 num den (signBit a ^^ signBit b)) ∧
    (isZero a = true → isFinite b = true → fmul32 a b = zeroOf (signBit a ^^ signBit b)) ∧
    (isFinite a = true → isFinite b = true → 2 ^ 128 - 2 ^ 103 ≤ |val a * val b| →
      fmul32 a b = infOf (signBit a ^^ signBit b)) ∧
    (isFinite a = true → isFinite b = true → |val a * val b| ≤ (2 : ℚ) ^ (-150 : ℤ) →
      fmul32 a b = zeroOf (signBit a ^^ signBit b)) ∧
    (isFinite a = true → isFinite b = true → signBit (fmul32 a b) = (signBit a ^^ signBit b)) ∧
    fmul32 a b = fmul32 b a

/-- Rule R127: multiplying by `1.0` and by `+0.0`, exact integer products, and the rule's examples. -/
def Obligations.MultiplicationConsequences : Prop :=
  (∀ c : Word, isNaN c = false → fmul32 c 0x3F800000#32 = c) ∧
  (∀ c : Word, isFinite c = true → fmul32 c 0x00000000#32 = if signBit c then 0x80000000#32 else 0x00000000#32) ∧
  (∀ (a b : Word) (m n : ℤ), isFinite a = true → isFinite b = true → val a = m → val b = n → |m * n| < 2 ^ 24 →
    isFinite (fmul32 a b) = true ∧ val (fmul32 a b) = ((m * n : ℤ) : ℚ)) ∧
  fmul32 0x3DCCCCCD#32 0x3DCCCCCD#32 = 0x3C23D70B#32 ∧ fmul32 0x3F800001#32 0x3F800001#32 = 0x3F800002#32 ∧
  fmul32 0x7F7FFFFF#32 0x40000000#32 = 0x7F800000#32 ∧ fmul32 0x00000001#32 0x3F000000#32 = 0x00000000#32 ∧
  fmul32 0x00000003#32 0x3F000000#32 = 0x00000002#32 ∧ fmul32 0x80000001#32 0x3F000000#32 = 0x80000000#32 ∧
  fmul32 0x7F800000#32 0x00000000#32 = 0x7FC00000#32 ∧ fmul32 0x7F800000#32 0xBF800000#32 = 0xFF800000#32

/-- Rule R128: `fadd32` case by case, the sign of a zero sum, and that it is commutative. -/
def Obligations.AdditionCases : Prop :=
  (∀ a b : Word,
    ((isNaN a = true ∨ isNaN b = true) → fadd32 a b = qnan) ∧
    (isInf a = true → isInf b = true → fadd32 a b = if signBit a = signBit b then a else qnan) ∧
    (isInf a = true → isFinite b = true → fadd32 a b = a) ∧
    (isFinite a = true → isInf b = true → fadd32 a b = b) ∧
    (isFinite a = true → isFinite b = true → val a + val b = 0 →
      fadd32 a b = if a = 0x80000000#32 ∧ b = 0x80000000#32 then 0x80000000#32 else 0x00000000#32) ∧
    (∀ (num : ℤ) (den : Nat), isFinite a = true → isFinite b = true → 0 < den → (num : ℚ) / den = val a + val b →
      num ≠ 0 → fadd32 a b = round32 num den false) ∧
    fadd32 a b = fadd32 b a) ∧
  ∃ a b c : Word, fadd32 (fadd32 a b) c ≠ fadd32 a (fadd32 b c)

/-- Rule R129 (its exactness clause with the bound `j ≤ 104` that keeps the sum below overflow, log entry 15): adding
zeros, exact sums, and that a nonzero sum never underflows to zero. -/
def Obligations.AdditionConsequences : Prop :=
  fadd32 0x00000000#32 0x00000000#32 = 0x00000000#32 ∧ fadd32 0x00000000#32 0x80000000#32 = 0x00000000#32 ∧
  (∀ c : Word, isNaN c = false → c ≠ 0x80000000#32 → fadd32 0x00000000#32 c = c) ∧
  (∀ (c : Word) (sg : Bool), isNaN c = false → isZero c = false → fadd32 c (zeroOf sg) = c) ∧
  (∀ (a b : Word) (m n j : ℤ), isFinite a = true → isFinite b = true → -149 ≤ j → j ≤ 104 →
    val a = m * (2 : ℚ) ^ j → val b = n * (2 : ℚ) ^ j → |val a + val b| < (2 : ℚ) ^ (j + 24) →
    isFinite (fadd32 a b) = true ∧ val (fadd32 a b) = val a + val b) ∧
  (∀ a b : Word, isFinite a = true → isFinite b = true → val a + val b ≠ 0 →
    (2 : ℚ) ^ (-149 : ℤ) ≤ |val a + val b| ∧ isZero (fadd32 a b) = false) ∧
  fadd32 0x4B800000#32 0x3F800000#32 = 0x4B800000#32 ∧ fadd32 0x4B800001#32 0x3F800000#32 = 0x4B800002#32 ∧
  fadd32 0x3DCCCCCD#32 0x3DCCCCCD#32 = 0x3E4CCCCD#32 ∧ fadd32 0x3E4CCCCD#32 0x3DCCCCCD#32 = 0x3E99999A#32 ∧
  fadd32 0x7F7FFFFF#32 0x73000000#32 = 0x7F800000#32 ∧ fadd32 0x7F800000#32 0xFF800000#32 = 0x7FC00000#32 ∧
  fadd32 0x00800000#32 0x80000001#32 = 0x007FFFFF#32 ∧ fadd32 0x80000000#32 0x80000000#32 = 0x80000000#32

/-! ## Invariants and whole-machine rules -/

/-- Rule R32: the reset values, which are those INIT leaves in the filter. -/
def Obligations.ResetValues : Prop :=
  (∀ i, i < 50 → State.reset.history[i]! = 0x00000000#32) ∧ State.reset.writeCursor.val = 0 ∧
  State.reset.coeff = Config.coeffTable ∧ State.reset.response = none ∧
  ∀ (a : Word) (s : State), ∃ t, exec (.init a) s = .next t ∧ t.history = State.reset.history ∧
    t.writeCursor = State.reset.writeCursor

/-- Rule R8 and the invariant of this model: every coefficient is finite, no response is malformed, at reset. -/
def Obligations.ResetMeetsInvariant : Prop := State.reset.Inv

/-- Rules R8, R25, R64: every step keeps the invariant. -/
def Obligations.StepKeepsInvariant : Prop :=
  ∀ s t : State, s.Inv → step s = .next t → t.Inv

/-- Rule R22: after reset and after every command, `history` holds exactly the most recently pushed samples, `+0.0` where
fewer than 50 have come, and the slot at the cursor holds the oldest. -/
def Obligations.StepKeepsHistoryInvariant : Prop :=
  historyHolds [] State.reset ∧
  (∀ (log : List Word) (s t : State), historyHolds log s → step s = .next t → historyHolds (logAfter log s) t) ∧
  ∀ (log : List Word) (s : State), historyHolds log s → s.history[s.writeCursor.val]! = log.reverse.getD 49 0#32

/-- Rules R21 and R23: only a reset, INIT and PUSH change `history` or `writeCursor`; PUSH changes one slot. -/
def Obligations.OnlyInitPushAndResetWriteTheFilter : Prop :=
  ∀ s t : State, step s = .next t →
    ((t.history ≠ s.history ∨ t.writeCursor ≠ s.writeCursor) →
      s.nextIsReset = true ∨ (∃ a, s.nextCommand = some (.init a)) ∨ ∃ x, s.nextCommand = some (.push x)) ∧
    ∀ x, s.nextCommand = some (.push x) → ∀ i, i < 50 → i ≠ s.writeCursor.val → t.history[i]! = s.history[i]!

/-- Rule R25 (TOINT_NAN with it, R104): no command writes the table and reset does not change it. -/
def Obligations.ConstantsNeverChange : Prop :=
  ∀ s t : State, step s = .next t → t.coeff = s.coeff ∧ t.toIntNan = s.toIntNan

/-! ## Runs -/

/-- Rules R47, R61, R65: whatever the edges, without a reset, the block has executed exactly the words transferred,
one at a time in the order of transfer, with one response each, in order, at most one of them waiting. The edges are
the model's schedule, one step an edge at which the block is not busy (DESIGN CHOICE, log entries 3 and 4), and no
word is transferred at the edge of a response (DEDUCED, log entry 7). -/
def Obligations.EdgesRefineOneAtATime : Prop :=
  ∀ (es : List ClockEdge) (s : State), (∀ e ∈ es, e.rst = false) →
    ∃ t, driveEdges es s = some t ∧
      runCommands ((transferred es s).map decode) s.deliver = some t.deliver ∧
      t.deliver.taken.length = s.deliver.taken.length + (transferred es s).length

/-- Rule R168: with one PUSH then one PRODUCE per sample after INIT, output n is the rounded sum over k of `COEFF[k] *
x(n - k)`, with x(i) = 0 for i < 0. The host that sends them offers one word and takes its response at the next edge
(DESIGN CHOICE, log entries 3 and 16). -/
def Obligations.FilterOutputIsConvolution : Prop :=
  ∀ (xs : List Word) (s : State), ∃ t ys u, runCommands [.init 0#32] s = some t ∧
    mapAccum filterSample xs t = some (ys, u) ∧ ys.length = xs.length ∧
    ∀ n, n < xs.length → ys[n]! = (List.range 50).foldl (fun acc k =>
      fadd32 acc (fmul32 s.coeff[k]! (if k ≤ n then xs[n - k]! else 0#32))) 0#32

/-- Rules R166, R168, R169: in any command sequence that begins with INIT, has no other, and keeps the one-PUSH-then-one-
PRODUCE contract, whatever conversions and illegal commands stand between, PRODUCE number n answers the convolution of the
pushed samples at n. -/
def Obligations.ContractGivesConvolution : Prop :=
  ∀ (a : Word) (cs : List Instr) (s : State), (∀ i ∈ cs, isInit i = false) → filterContract false cs = true →
    ∃ t, runCommands (.init a :: cs) s = some t ∧
      ((cs.zip (t.taken.drop (s.taken.length + 1))).filter fun p => isProduce p.1).map Prod.snd =
        (List.range (cs.filterMap pushOperand).length).map fun n => ⟨false,
          (List.range 50).foldl (fun acc k =>
            fadd32 acc (fmul32 s.coeff[k]! (if k ≤ n then (cs.filterMap pushOperand)[n - k]! else 0#32))) 0#32⟩

/-- Rules R61, R65, R175: a host that offers each word in turn and takes its response keeps its offers, has every word
transferred, in order, and ends with no response waiting. That two edges a word suffice is the model's: a response
waits at the edge after its command, and `cmd_ready` is high whenever none waits (DESIGN CHOICE, log entry 3), on the
model's schedule of edges (DESIGN CHOICE, log entry 4). -/
def Obligations.SendingTransfersEveryWord : Prop :=
  ∀ (ws : List CommandWord) (s : State), s.response = none →
    hostKeepsOffers false (sendSchedule ws) = true ∧ transferred (sendSchedule ws) s = ws ∧
    ∃ t, driveEdges (sendSchedule ws) s = some t ∧ t.response = none ∧ t.taken.length = s.taken.length + ws.length

/-- Rule R175: a waiting response is held as long as the host does not take it, and a host that takes it frees the
block; without commands or reset nothing else can. The edges are the model's schedule, one step an edge at which the
block is not busy (DESIGN CHOICE, log entries 3 and 4). -/
def Obligations.TakingTheResponseFreesTheBlock : Prop :=
  ∀ (es : List ClockEdge) (s : State) (r : Response), s.response = some r →
    (∀ e ∈ es, e.rst = false) → (∀ e ∈ es, e.cmdValid = false) →
    ∃ t, driveEdges es s = some t ∧ t.history = s.history ∧ t.writeCursor = s.writeCursor ∧
      (hostTakesResponse es = true → t.response = none ∧ t.taken = s.taken ++ [r]) ∧
      (hostTakesResponse es = false → t = s)

/-- Rule R174: two chunkings of one sample sequence give identical outputs. The streaming loop and the host are the
model's (DESIGN CHOICE, log entry 16, on the edges of log entry 3). -/
def Obligations.ChunkingDoesNotMatter : Prop :=
  ∀ (cs ds : List (List Half)) (s : State), (∀ c ∈ cs, c ≠ []) → (∀ d ∈ ds, d ≠ []) → cs.flatten = ds.flatten →
    s.response = none →
    ∃ ys t u, processStream cs s = some (ys, t) ∧ processStream ds s = some (ys, u) ∧ ys.length = cs.flatten.length ∧
      t.history = u.history ∧ t.writeCursor = u.writeCursor

/-- Rules R171, R172, R173: the streaming loop gives what the SAMPLE sequence gives sample by sample, for exactly the
samples before the first empty chunk. The loop and the host are the model's (DESIGN CHOICE, log entry 16, on the edges
of log entry 3). -/
def Obligations.StreamEqualsSampleSequence : Prop :=
  ∀ (cs rest : List (List Half)) (s : State), (∀ c ∈ cs, c ≠ []) → s.response = none →
    ∃ ys t u, processStream (cs ++ [] :: rest) s = some (ys, t) ∧ mapAccum processSample cs.flatten s = some (ys, u) ∧
      t.history = u.history ∧ t.writeCursor = u.writeCursor

/-- Rules R48 and R149: in any interleaving of several blocks' steps, each block ends where its own steps alone would have
brought it. -/
def Obligations.BlocksAreIndependent : Prop :=
  ∀ (order : List Nat) (blocks : List State), ∃ after, runBlocks order blocks = some after ∧
    ∀ (n : Nat) (s : State), blocks[n]? = some s →
      ∃ t, runAlone (order.count n) s = some t ∧ after[n]? = some t
end

