-- ==== Sys2Proof/Laws/Decode.lean ====
section
/-! SUPPORT. The fields of a command word that is put together from its fields. -/

namespace Sys2Proof

@[simp] theorem opField_append (op : BitVec 3) (arg : Word) : opField (op ++ arg) = op := by
  ext i hi
  simp only [opField, BitVec.getElem_extractLsb']
  exact (BitVec.getLsbD_append (x := op) (y := arg)).trans (by simp [hi])

@[simp] theorem argField_append (op : BitVec 3) (arg : Word) : argField (op ++ arg) = arg := by
  ext i hi
  simp only [argField, BitVec.getElem_extractLsb']
  exact (BitVec.getLsbD_append (x := op) (y := arg)).trans (by simp [hi])

@[simp] theorem argHigh_append (hi lo : Half) : argHigh (hi ++ lo) = hi := by
  ext i h
  simp only [argHigh, BitVec.getElem_extractLsb']
  exact (BitVec.getLsbD_append (x := hi) (y := lo)).trans (by simp [h])

@[simp] theorem argLow_append (hi lo : Half) : argLow (hi ++ lo) = lo := by
  ext i h
  simp only [argLow, BitVec.getElem_extractLsb']
  exact (BitVec.getLsbD_append (x := hi) (y := lo)).trans (by simp [h])

/-- A command word is its two fields. -/
theorem fields_append (w : CommandWord) : (opField w ++ argField w : CommandWord) = w :=
  (BitVec.extractLsb'_append_extractLsb'_eq_extractLsb' (by decide)).trans (by simp)

/-- An operand word is its two halves. -/
theorem halves_append (arg : Word) : (argHigh arg ++ argLow arg : Word) = arg :=
  (BitVec.extractLsb'_append_extractLsb'_eq_extractLsb' (by decide)).trans (by simp)

/-- The opcode field of an encoded instruction. -/
@[simp] theorem opField_encode (i : Instr) : opField (encode i) = i.opcode := by simp [encode]

/-- The operand field of an encoded instruction. -/
@[simp] theorem argField_encode (i : Instr) : argField (encode i) = i.operandWord := by simp [encode]

/-- The reserved opcodes of the second ILLEGAL row. -/
theorem reservedHigh_iff (op : BitVec 3) : reservedHigh op = true ↔ op = 6#3 ∨ op = 7#3 := by
  simp [reservedHigh]

end Sys2Proof
end

