-- ==== Sys2Proof/Laws/Float.lean ====
section
/-! SUPPORT. Fields and classes of patterns, exact values, and the steps of rounding. -/

namespace Sys2Proof.Machine

/-! Fields. -/

@[simp] theorem signBit_packF32 (s : Bool) (e f : Nat) : signBit (packF32 s e f) = s := by
  simp only [signBit, packF32]
  exact (BitVec.getLsbD_append (x := BitVec.ofBool s) (y := BitVec.ofNat 8 e ++ BitVec.ofNat 23 f)).trans (by simp)

/-- The biased exponent of a packed pattern: the number narrowed to 8 bits. -/
theorem biasedExp_packF32 (s : Bool) (e f : Nat) : biasedExp (packF32 s e f) = e % 256 := by
  have h : (packF32 s e f).extractLsb' 23 8 = BitVec.ofNat 8 e := by
    ext i hi
    simp only [BitVec.getElem_extractLsb', packF32]
    refine (BitVec.getLsbD_append (x := BitVec.ofBool s) (y := BitVec.ofNat 8 e ++ BitVec.ofNat 23 f)).trans ?_
    rw [if_pos (by omega)]
    refine (BitVec.getLsbD_append (x := BitVec.ofNat 8 e) (y := BitVec.ofNat 23 f)).trans ?_
    simp [BitVec.getLsbD_eq_getElem hi]
  simp [biasedExp, h]

/-- The fraction of a packed pattern: the number narrowed to 23 bits. -/
theorem fraction_packF32 (s : Bool) (e f : Nat) : fraction (packF32 s e f) = f % 2 ^ 23 := by
  have h : (packF32 s e f).extractLsb' 0 23 = BitVec.ofNat 23 f := by
    ext i hi
    simp only [BitVec.getElem_extractLsb', packF32]
    refine (BitVec.getLsbD_append (x := BitVec.ofBool s) (y := BitVec.ofNat 8 e ++ BitVec.ofNat 23 f)).trans ?_
    rw [if_pos (by omega)]
    refine (BitVec.getLsbD_append (x := BitVec.ofNat 8 e) (y := BitVec.ofNat 23 f)).trans ?_
    simp [hi]
  simp [fraction, h]

theorem biasedExp_lt (x : Word) : biasedExp x < 256 := (x.extractLsb' 23 8).isLt

theorem fraction_lt (x : Word) : fraction x < 2 ^ 23 := (x.extractLsb' 0 23).isLt

/-- A pattern is its three fields. -/
theorem packF32_fields (x : Word) : packF32 (signBit x) (biasedExp x) (fraction x) = x := by
  have h1 : (x.extractLsb' 23 8 ++ x.extractLsb' 0 23 : BitVec 31) = x.extractLsb' 0 31 :=
    BitVec.extractLsb'_append_extractLsb'_eq_extractLsb' (by decide)
  have h2 : (x.extractLsb' 31 1 ++ x.extractLsb' 0 31 : BitVec 32) = x.extractLsb' 0 32 :=
    BitVec.extractLsb'_append_extractLsb'_eq_extractLsb' (by decide)
  have h3 : BitVec.ofBool (signBit x) = x.extractLsb' 31 1 := by
    ext i hi
    obtain rfl : i = 0 := by omega
    simp [signBit]
  simp only [packF32, biasedExp, fraction, BitVec.ofNat_toNat, BitVec.setWidth_eq, h3]
  rw [h1]
  exact h2.trans (by simp)

/-- Two patterns with equal fields are equal. -/
theorem f32_ext {x y : Word} (hs : signBit x = signBit y) (he : biasedExp x = biasedExp y) (hf : fraction x = fraction y) :
    x = y := by
  rw [← packF32_fields x, ← packF32_fields y, hs, he, hf]

/-! Classes (R120). -/

theorem isNaN_iff (x : Word) : isNaN x = true ↔ biasedExp x = 255 ∧ fraction x ≠ 0 := by
  simp only [isNaN, classify]
  split <;> split <;> simp_all

theorem isInf_iff (x : Word) : isInf x = true ↔ biasedExp x = 255 ∧ fraction x = 0 := by
  simp only [isInf, classify]
  split <;> split <;> simp_all

theorem isZero_iff (x : Word) : isZero x = true ↔ biasedExp x = 0 ∧ fraction x = 0 := by
  simp only [isZero, classify]
  split <;> split <;> simp_all
  split <;> simp_all

theorem isFinite_iff (x : Word) : isFinite x = true ↔ biasedExp x ≠ 255 := by simp [isFinite]

/-- A pattern is finite, or an infinity, or a NaN, and only one of them. -/
theorem finite_or_inf_or_nan (x : Word) :
    (isFinite x = true ∧ isInf x = false ∧ isNaN x = false) ∨
    (isFinite x = false ∧ isInf x = true ∧ isNaN x = false) ∨
    (isFinite x = false ∧ isInf x = false ∧ isNaN x = true) := by
  simp only [← Bool.not_eq_true, isFinite_iff, isInf_iff, isNaN_iff]
  omega

/-- An infinity is one of two patterns. -/
theorem eq_infOf {x : Word} (h : isInf x = true) : x = infOf (signBit x) := by
  obtain ⟨he, hf⟩ := (isInf_iff x).1 h
  rw [infOf, ← he, ← hf, packF32_fields]

/-- A zero is one of two patterns. -/
theorem eq_zeroOf {x : Word} (h : isZero x = true) : x = zeroOf (signBit x) := by
  obtain ⟨he, hf⟩ := (isZero_iff x).1 h
  conv_lhs => rw [← packF32_fields x, he, hf]
  rfl

/-! Values (R121). -/

/-- The scaled value is `val` over the common denominator. -/
theorem scaled_eq (x : Word) : (scaled x : ℚ) = val x * 2 ^ 149 := by
  rw [val]
  field_simp

theorem val_le_val_iff (x y : Word) : val x ≤ val y ↔ scaled x ≤ scaled y := by
  rw [val, val, div_le_div_iff_of_pos_right (by positivity), Int.cast_le]

theorem val_lt_val_iff (x y : Word) : val x < val y ↔ scaled x < scaled y := by
  rw [val, val, div_lt_div_iff_of_pos_right (by positivity), Int.cast_lt]

theorem natAbs_scaled (x : Word) : (scaled x).natAbs = scaledMag x := by
  rw [scaled]
  split <;> simp

/-! Rounding (R124). -/

/-- The rounded quotient is within one half of the exact one. -/
theorem divNearestEven_near (a : Nat) {b : Nat} (hb : 0 < b) :
    2 * a ≤ (2 * divNearestEven a b + 1) * b ∧ 2 * (divNearestEven a b * b) ≤ 2 * a + b := by
  have h := Nat.div_add_mod a b
  have hm := Nat.mod_lt a hb
  rw [divNearestEven]
  generalize a / b = q at *
  generalize a % b = r at *
  subst h
  have hq : (2 * q + 1) * b = 2 * (b * q) + b := by ring
  have hq' : (2 * (q + 1) + 1) * b = 2 * (b * q) + 3 * b := by ring
  have hq'' : (q + 1) * b = b * q + b := by ring
  have hqb : q * b = b * q := Nat.mul_comm q b
  split <;> constructor <;> omega

/-- On a tie the rounded quotient is even. -/
theorem divNearestEven_tie {a b : Nat} (h : 2 * (a % b) = b) : divNearestEven a b % 2 = 0 := by
  rw [divNearestEven]
  split <;> omega

/-- An exact quotient is kept. -/
theorem divNearestEven_mul (q : Nat) {b : Nat} (hb : 0 < b) : divNearestEven (q * b) b = q := by
  simp [divNearestEven, hb, Nat.ne_of_lt hb]

/-- Below the next power of two: `|q| < 2^(E + 1)`. -/
theorem lt_roundExp_succ (n : Nat) {d : Nat} (hd : 0 < d) : n * 2 ^ 126 < d * 2 ^ (roundExp n d + 1) := by
  have h : n * 2 ^ 126 / d < 2 ^ (roundExp n d + 1) := by
    rw [roundExp]
    exact Nat.lt_log2_self
  rw [Nat.div_lt_iff_lt_mul hd] at h
  linarith

/-- At or above the power of two, unless the exponent is the least: `2^E ≤ |q|`. -/
theorem roundExp_le {n d : Nat} (hk : roundExp n d ≠ 0) : d * 2 ^ roundExp n d ≤ n * 2 ^ 126 := by
  have hne : n * 2 ^ 126 / d ≠ 0 := fun h => hk (by rw [roundExp, h]; rfl)
  have h : 2 ^ roundExp n d ≤ n * 2 ^ 126 / d := Nat.log2_self_le hne
  calc d * 2 ^ roundExp n d ≤ d * (n * 2 ^ 126 / d) := Nat.mul_le_mul_left _ h
    _ ≤ n * 2 ^ 126 := Nat.mul_div_le _ _

/-- The result of rounding a nonzero rational, in one place. -/
theorem round32_of_ne_zero {num : Int} (h : num ≠ 0) (den : Nat) (z : Bool) :
    round32 num den z = renormalise (decide (num < 0)) (roundExp num.natAbs den) (roundSig num.natAbs den) := by
  simp [round32, h]

theorem round32_zero (den : Nat) (z : Bool) : round32 0 den z = zeroOf z := by simp [round32]

@[simp] theorem signBit_encodeRounded (s : Bool) (k m : Nat) : signBit (encodeRounded s k m) = s := by
  rw [encodeRounded]
  split
  · simp [infOf]
  · split <;> simp

end Sys2Proof.Machine
end

