-- ==== Sys2Proof/Laws/State.lean ====
section
/-! SUPPORT. What each named update of State does to each field, one lemma per field per update. -/

namespace Sys2Proof.Machine

variable (s : State)

@[simp] theorem storeSample_history (x : Word) : (s.storeSample x).history = s.history.set s.writeCursor.val x s.writeCursor.isLt := rfl
@[simp] theorem storeSample_writeCursor (x : Word) : (s.storeSample x).writeCursor = advance s.writeCursor := rfl
@[simp] theorem storeSample_response (x : Word) : (s.storeSample x).response = s.response := rfl
@[simp] theorem storeSample_coeff (x : Word) : (s.storeSample x).coeff = s.coeff := rfl
@[simp] theorem storeSample_toIntNan (x : Word) : (s.storeSample x).toIntNan = s.toIntNan := rfl
@[simp] theorem storeSample_edges (x : Word) : (s.storeSample x).edges = s.edges := rfl
@[simp] theorem storeSample_taken (x : Word) : (s.storeSample x).taken = s.taken := rfl

@[simp] theorem clearHistory_history : (s.clearHistory).history = Vector.replicate tapCount 0#32 := rfl
@[simp] theorem clearHistory_writeCursor : (s.clearHistory).writeCursor = 0 := rfl
@[simp] theorem clearHistory_response : (s.clearHistory).response = s.response := rfl
@[simp] theorem clearHistory_coeff : (s.clearHistory).coeff = s.coeff := rfl
@[simp] theorem clearHistory_toIntNan : (s.clearHistory).toIntNan = s.toIntNan := rfl
@[simp] theorem clearHistory_edges : (s.clearHistory).edges = s.edges := rfl
@[simp] theorem clearHistory_taken : (s.clearHistory).taken = s.taken := rfl

@[simp] theorem respond_history (r : Response) : (s.respond r).history = s.history := rfl
@[simp] theorem respond_writeCursor (r : Response) : (s.respond r).writeCursor = s.writeCursor := rfl
@[simp] theorem respond_response (r : Response) : (s.respond r).response = some r := rfl
@[simp] theorem respond_coeff (r : Response) : (s.respond r).coeff = s.coeff := rfl
@[simp] theorem respond_toIntNan (r : Response) : (s.respond r).toIntNan = s.toIntNan := rfl
@[simp] theorem respond_edges (r : Response) : (s.respond r).edges = s.edges := rfl
@[simp] theorem respond_taken (r : Response) : (s.respond r).taken = s.taken := rfl

@[simp] theorem raiseIllegalCommand_history (op : BitVec 3) : (s.raiseIllegalCommand op).history = s.history := rfl
@[simp] theorem raiseIllegalCommand_writeCursor (op : BitVec 3) : (s.raiseIllegalCommand op).writeCursor = s.writeCursor := rfl
@[simp] theorem raiseIllegalCommand_response (op : BitVec 3) : (s.raiseIllegalCommand op).response = some illegalResponse := rfl
@[simp] theorem raiseIllegalCommand_coeff (op : BitVec 3) : (s.raiseIllegalCommand op).coeff = s.coeff := rfl
@[simp] theorem raiseIllegalCommand_toIntNan (op : BitVec 3) : (s.raiseIllegalCommand op).toIntNan = s.toIntNan := rfl
@[simp] theorem raiseIllegalCommand_edges (op : BitVec 3) : (s.raiseIllegalCommand op).edges = s.edges := rfl
@[simp] theorem raiseIllegalCommand_taken (op : BitVec 3) : (s.raiseIllegalCommand op).taken = s.taken := rfl

@[simp] theorem resetBlock_history : (s.resetBlock).history = Vector.replicate tapCount 0#32 := rfl
@[simp] theorem resetBlock_writeCursor : (s.resetBlock).writeCursor = 0 := rfl
@[simp] theorem resetBlock_response : (s.resetBlock).response = none := rfl
@[simp] theorem resetBlock_coeff : (s.resetBlock).coeff = s.coeff := rfl
@[simp] theorem resetBlock_toIntNan : (s.resetBlock).toIntNan = s.toIntNan := rfl
@[simp] theorem resetBlock_edges : (s.resetBlock).edges = s.edges := rfl
@[simp] theorem resetBlock_taken : (s.resetBlock).taken = s.taken := rfl

@[simp] theorem deliver_history : (s.deliver).history = s.history := rfl
@[simp] theorem deliver_writeCursor : (s.deliver).writeCursor = s.writeCursor := rfl
@[simp] theorem deliver_response : (s.deliver).response = none := rfl
@[simp] theorem deliver_coeff : (s.deliver).coeff = s.coeff := rfl
@[simp] theorem deliver_toIntNan : (s.deliver).toIntNan = s.toIntNan := rfl
@[simp] theorem deliver_edges : (s.deliver).edges = s.edges := rfl
@[simp] theorem deliver_taken : (s.deliver).taken = s.taken ++ s.response.toList := rfl

@[simp] theorem placeCommand_history (w : CommandWord) : (s.placeCommand w).history = s.history := rfl
@[simp] theorem placeCommand_writeCursor (w : CommandWord) : (s.placeCommand w).writeCursor = s.writeCursor := rfl
@[simp] theorem placeCommand_response (w : CommandWord) : (s.placeCommand w).response = none := rfl
@[simp] theorem placeCommand_coeff (w : CommandWord) : (s.placeCommand w).coeff = s.coeff := rfl
@[simp] theorem placeCommand_toIntNan (w : CommandWord) : (s.placeCommand w).toIntNan = s.toIntNan := rfl
@[simp] theorem placeCommand_edges (w : CommandWord) : (s.placeCommand w).edges = offerEdge w :: s.edges := rfl
@[simp] theorem placeCommand_taken (w : CommandWord) : (s.placeCommand w).taken = s.taken := rfl

/-- Delivering where nothing is pending changes nothing. -/
theorem deliver_of_none (h : s.response = none) : s.deliver = s := by
  cases s
  simp_all [State.deliver]

end Sys2Proof.Machine
end

