-- ==== Sys2Proof/Laws/Ops.lean ====
section
/-! SUPPORT. What the shared operations and the meanings do, said once. -/

namespace Sys2Proof.Machine

/-- The cursor advance as the spec says it for a 6-bit register (R88). -/
theorem advance_val (c : Fin tapCount) : (advance c).val = if c.val = 49 then 0 else c.val + 1 := by
  have hc : c.val < 50 := c.isLt
  simp only [advance, tapCount]
  split <;> omega

/-- A slot after a store: the operand in the slot at the cursor, every other slot as it was (R82). -/
theorem slot_storeSample (s : State) (x : Word) (i : Nat) :
    (s.storeSample x).slot i = if i % tapCount = s.writeCursor.val then x else s.slot i := by
  simp only [State.slot, State.storeSample, Vector.getElem_set, eq_comm]

/-- The newest sample after a PUSH is its operand (R22). -/
theorem window_storeSample_zero (s : State) (x : Word) : (s.storeSample x).window 0 = x := by
  have hc := s.writeCursor.isLt
  simp only [State.window, slot_storeSample, storeSample_writeCursor, advance, tapCount] at *
  rw [if_pos]
  omega

/-- After a PUSH every earlier sample is one push older (R22). -/
theorem window_storeSample_succ (s : State) (x : Word) (k : Nat) (hk : k + 1 < tapCount) :
    (s.storeSample x).window (k + 1) = s.window k := by
  have hc := s.writeCursor.isLt
  simp only [State.window, slot_storeSample, storeSample_writeCursor, advance, tapCount] at *
  rw [if_neg (by omega)]
  simp only [State.slot, tapCount]
  congr 1
  omega

/-- The window reads the history and the cursor only. -/
theorem window_congr {s t : State} (hh : t.history = s.history) (hc : t.writeCursor = s.writeCursor) (k : Nat) :
    t.window k = s.window k := by
  simp [State.window, State.slot, hh, hc]

/-- The window of a cleared history. -/
theorem window_of_cleared {s : State} (h : s.history = Vector.replicate tapCount 0#32) (k : Nat) : s.window k = 0#32 := by
  simp [State.window, State.slot, h]

/-- The accumulator depends on the taps it has passed only. -/
theorem accumulate_congr {c h c' h' : Nat → Word} {n : Nat} (hc : ∀ k, k < n → c k = c' k) (hh : ∀ k, k < n → h k = h' k) :
    accumulate c h n = accumulate c' h' n := by
  induction n with
  | zero => rfl
  | succ n ih =>
    simp only [accumulate]
    rw [ih (fun k hk => hc k (by omega)) (fun k hk => hh k (by omega)), hc n (by omega), hh n (by omega)]

/-- The accumulator as a fold over the taps in ascending order (R84). -/
theorem accumulate_eq_foldl (c h : Nat → Word) (n : Nat) :
    accumulate c h n = (List.range n).foldl (fun acc k => fadd32 acc (fmul32 (c k) (h k))) 0#32 := by
  induction n with
  | zero => rfl
  | succ n ih => simp [accumulate, ih, List.range_succ]

/-- A coefficient at an index in range. -/
theorem coefficient_of_lt (s : State) {k : Nat} (hk : k < tapCount) : s.coefficient k = s.coeff[k] := by
  simp [State.coefficient, Nat.mod_eq_of_lt hk]

/-- A slot at an index in range. -/
theorem slot_of_lt (s : State) {i : Nat} (hi : i < tapCount) : s.slot i = s.history[i] := by
  simp [State.slot, Nat.mod_eq_of_lt hi]

/-- The filter part of a meaning's next state. -/
def filterEffect : Instr → State → State
  | .init _, s => s.clearHistory
  | .push x, s => s.storeSample x
  | .produce _, s => s
  | .toFloat _ _, s => s
  | .toInt _, s => s
  | .illegalZero _, s => s
  | .illegalHigh _ _, s => s

/-- The response of a meaning. -/
def answer : Instr → State → Response
  | .init _, _ => okResponse 0#32
  | .push _, _ => okResponse 0#32
  | .produce _, s => okResponse s.dotProduct
  | .toFloat _ x, _ => okResponse (i16ToF32 x)
  | .toInt x, s => okResponse ((f32ToI16Sat s.toIntNan x).signExtend 32)
  | .illegalZero _, _ => illegalResponse
  | .illegalHigh _ _, _ => illegalResponse

/-- Everything a meaning does: its effect on the filter, and one response. -/
theorem exec_eq (i : Instr) (s : State) : exec i s = .next ((filterEffect i s).respond (answer i s)) := by
  cases i <;> rfl

/-- No meaning touches the constants, the edges or the transferred responses. -/
theorem filterEffect_frame (i : Instr) (s : State) :
    (filterEffect i s).coeff = s.coeff ∧ (filterEffect i s).toIntNan = s.toIntNan ∧
      (filterEffect i s).edges = s.edges ∧ (filterEffect i s).taken = s.taken := by
  cases i <;> exact ⟨rfl, rfl, rfl, rfl⟩

/-- An `err` response carries no data. -/
theorem answer_err (i : Instr) (s : State) (h : (answer i s).err = true) : (answer i s).data = 0#32 := by
  cases i <;> simp_all [answer, okResponse, illegalResponse]

end Sys2Proof.Machine
end

