-- ==== Sys2Proof/Laws/PerInstr.lean ====
section
/-! SUPPORT. Facts about each instruction as syntax, one lemma per constructor. -/

namespace Sys2Proof.Laws.EncodeFields

/-- A well-formed instruction's word has its opcode above its operand word, and these two fields decode to it. -/
def Statement (i : Instr) : Prop :=
  i.wellFormed = true → encode i = i.opcode ++ i.operandWord ∧ decodeFields i.opcode i.operandWord = i

theorem init (ignored : Word) : Statement (.init ignored) := fun _ => ⟨rfl, rfl⟩

theorem push (sample : Word) : Statement (.push sample) := fun _ => ⟨rfl, rfl⟩

theorem produce (ignored : Word) : Statement (.produce ignored) := fun _ => ⟨rfl, rfl⟩

theorem toFloat (ignored sample : Half) : Statement (.toFloat ignored sample) := fun _ => by
  simp [encode, decodeFields, Instr.opcode, Instr.operandWord]

theorem toInt (sample : Word) : Statement (.toInt sample) := fun _ => ⟨rfl, rfl⟩

theorem illegalZero (arg : Word) : Statement (.illegalZero arg) := fun _ => ⟨rfl, rfl⟩

theorem illegalHigh (op : BitVec 3) (arg : Word) : Statement (.illegalHigh op arg) := fun h => by
  obtain rfl | rfl := (reservedHigh_iff op).1 h <;> exact ⟨rfl, rfl⟩

end Sys2Proof.Laws.EncodeFields
end

