-- ==== Sys2Proof/Laws/Step.lean ====
section
/-! SUPPORT. What one edge can do, said once; and the runs of the driver. -/

namespace Sys2Proof.Machine

/-- Everything an edge can do, with the condition of each case. -/
theorem edgeStep_cases (e : ClockEdge) (s : State) :
    (e.rst = true ∧ edgeStep e s = .next s.resetBlock) ∨
    (e.rst = false ∧ s.response.isSome = true ∧ e.rspReady = true ∧ edgeStep e s = .next s.deliver) ∨
    (e.rst = false ∧ s.response = none ∧ e.cmdValid = true ∧
      edgeStep e s = .next ((filterEffect (decode e.cmdWord) s).respond (answer (decode e.cmdWord) s))) ∨
    (e.rst = false ∧ (s.response.isSome = true → e.rspReady = false) ∧ (s.response = none → e.cmdValid = false) ∧
      edgeStep e s = .next s) := by
  cases hr : e.rst <;> cases hs : s.response <;> cases hv : e.cmdValid <;> cases hy : e.rspReady <;>
    simp [edgeStep, State.rspTransfer, State.cmdTransfer, State.rspValid, State.cmdReady, exec_eq, hr, hs, hv, hy]

/-- A step with an edge placed is that edge on the state with the edge used up. -/
theorem step_cons {s : State} {e : ClockEdge} {rest : List ClockEdge} (h : s.edges = e :: rest) :
    step s = edgeStep e { s with edges := rest } := by
  simp [step, nextEdge, h]

/-- A step with no edge placed keeps the state. -/
theorem step_nil {s : State} (h : s.edges = []) : step s = .next s := by
  simp [step, nextEdge, h]

/-- The transfer of a command at an edge (R61, R65). -/
theorem cmdTransfer_iff (s : State) (e : ClockEdge) :
    s.cmdTransfer e = true ↔ e.rst = false ∧ s.response = none ∧ e.cmdValid = true := by
  cases hr : e.rst <;> cases hs : s.response <;> simp [State.cmdTransfer, State.cmdReady, hr, hs]

/-- The transfer of a response at an edge (R61, R65). -/
theorem rspTransfer_iff (s : State) (e : ClockEdge) :
    s.rspTransfer e = true ↔ e.rst = false ∧ s.response.isSome = true ∧ e.rspReady = true := by
  cases hr : e.rst <;> cases hs : s.response <;> simp [State.rspTransfer, State.rspValid, hr, hs]

/-- One command of one-at-a-time execution. -/
theorem runCommands_cons (i : Instr) (rest : List Instr) (s : State) :
    runCommands (i :: rest) s = runCommands rest ((filterEffect i s).respond (answer i s)).deliver := by
  simp [runCommands, exec_eq]

/-- Executing one list after another. -/
theorem runCommands_append (xs ys : List Instr) (s : State) :
    runCommands (xs ++ ys) s = (runCommands xs s).bind (runCommands ys) := by
  induction xs generalizing s with
  | nil => rfl
  | cons i rest ih => rw [List.cons_append, runCommands_cons, runCommands_cons, ih]

/-- Sending a word where no response waits: the command, then the transfer of its response. -/
theorem send_of_none (w : CommandWord) {s : State} (h : s.response = none) :
    send w s = some ((filterEffect (decode w) s).respond (answer (decode w) s)).deliver := by
  simp [send, driveEdges, edgeNext, edgeStep, offerEdge, takeEdge, State.rspTransfer, State.cmdTransfer,
    State.rspValid, State.cmdReady, exec_eq, h]

/-- An edge neither reads nor writes the edges that come after it. -/
theorem edgeStep_edges (e : ClockEdge) (s : State) :
    ∃ t, edgeStep e s = .next t ∧ t.edges = s.edges ∧
      ∀ rest, edgeStep e { s with edges := rest } = .next { t with edges := rest } := by
  cases hr : e.rst <;> cases hs : s.response <;> cases hv : e.cmdValid <;> cases hy : e.rspReady <;>
    simp [edgeStep, State.rspTransfer, State.cmdTransfer, State.rspValid, State.cmdReady, State.resetBlock, State.deliver,
      exec_eq, filterEffect_frame, hr, hs, hv, hy]
  all_goals
    intro rest
    obtain ⟨_, _, _, _, _, _, _⟩ := s
    obtain rfl := hs
    cases decode e.cmdWord <;> rfl

/-- Driving a list of edges is stepping with them placed: the schedule in State is the same thing. -/
theorem runAlone_of_driveEdges {es : List ClockEdge} {s t : State} (h : driveEdges es s = some t) :
    runAlone es.length { s with edges := es ++ s.edges } = some t := by
  induction es generalizing s with
  | nil => simpa [driveEdges, runAlone] using h
  | cons e es ih =>
    obtain ⟨u, hu, he, hrest⟩ := edgeStep_edges e s
    have hstep : step { s with edges := e :: (es ++ s.edges) } = .next { u with edges := es ++ s.edges } :=
      (step_cons rfl).trans (hrest _)
    rw [driveEdges, edgeNext, hu] at h
    simpa [runAlone, hstep, he] using ih h

end Sys2Proof.Machine
end

