-- ==== Sys2Proof/Tests/Slice0.lean ====
section
/-! SUPPORT. Tests: expected values come from spec/95_test_vectors.md (the vector's name stands with each) and from the
rules' own examples; and a witness for the hypotheses of every statement that has some. -/

-- Theorem after theorem: many kernel evaluations that wait for one another would take a thread each.
set_option Elab.async false

namespace Sys2Proof.Tests

open Sys2Proof.Machine

/-! Helpers. -/

/-- Table T1 of 95_test_vectors.md: `COEFF[k] = (k + 1) / 64`. -/
def tableT1 : Vector Word 50 := Vector.ofFn fun k => round32 (k.val + 1) 64 false

/-- Table T2: `2^24, 1.0, 1.0`, then zeros. -/
def tableT2 : Vector Word 50 :=
  Vector.ofFn fun k => if k.val = 0 then 0x4B800000#32 else if k.val ≤ 2 then 0x3F800000#32 else 0#32

/-- A small state: a table, a cursor, slot contents by index, nothing pending. -/
def small (table : Vector Word 50) (w : Fin 50) (h : Nat → Word) : State :=
  { history := Vector.ofFn fun i => h i.val, writeCursor := w, response := none, coeff := table, toIntNan := 0#16,
    edges := [], taken := [] }

/-- All slots zero. -/
def blank : Nat → Word := fun _ => 0#32

/-- One slot holds a value, the others zero. -/
def oneSlot (i : Nat) (x : Word) : Nat → Word := fun j => if j = i then x else 0#32

def responseOf (o : Host.Outcome State Fault Refusal) : Option Response :=
  match o with
  | .next t => t.response
  | .fault _ => none
  | .refused _ => none

def cursorOf (o : Host.Outcome State Fault Refusal) : Option Nat :=
  match o with
  | .next t => some t.writeCursor.val
  | .fault _ => none
  | .refused _ => none

def slotOf (o : Host.Outcome State Fault Refusal) (i : Nat) : Option Word :=
  match o with
  | .next t => t.history[i]?
  | .fault _ => none
  | .refused _ => none

/-! WellFormed. -/

theorem test_wellFormed_accepts_reserved : (Instr.illegalHigh 7#3 0#32).wellFormed = true := by decide

theorem test_wellFormed_refuses_defined_opcode : (Instr.illegalHigh 2#3 0#32).wellFormed = false := by decide

theorem test_wellFormed_refuses_opcode_zero : (Instr.illegalHigh 0#3 0#32).wellFormed = false := by decide

/-! Decoding: words put together bit by bit from the encoding of R62, R63, R66. -/

theorem test_decode_init : decode 0b00111011110101011011011111011101111#35 = .init 0xDEADBEEF := by decide

theorem test_decode_push : decode 0b01000111111100000000000000000000000#35 = .push 0x3F800000 := by decide

theorem test_decode_produce : decode 0b01111111111111111111111111111111111#35 = .produce 0xFFFFFFFF := by decide

theorem test_decode_toFloat : decode 0b10000010010001101001000000000000000#35 = .toFloat 0x1234 0x8000 := by decide

theorem test_decode_toInt : decode 0b10101000000101111001100110011001101#35 = .toInt 0x40BCCCCD := by decide

theorem test_decode_illegal_zero : decode 0b00000111111100000000000000000000000#35 = .illegalZero 0x3F800000 := by decide

theorem test_decode_illegal_six : decode 0b11011111111111111111111111111111111#35 = .illegalHigh 6 0xFFFFFFFF := by decide

theorem test_decode_illegal_seven : decode 0b11100010010001101000101011001111000#35 = .illegalHigh 7 0x12345678 := by decide

theorem test_decodeTableWord_push : decodeTableWord 35 0x23F800000 = some (.push 0x3F800000) := by decide

theorem test_decodeTableWord_in_whole_bytes : decodeTableWord 40 0x500000001 = some (.toInt 1) := by decide

theorem test_decodeTableWord_refuses_36_bits : decodeTableWord 40 0x800000000 = none := by decide

theorem test_encode_toFloat : encode (.toFloat 0x1234 0x8000) = 0x412348000 := by decide

theorem test_opcodeTable_rows_are_disjoint :
    opcodeTable.Pairwise fun r q => (r.matchBits ^^^ q.matchBits) &&& r.maskBits &&& q.maskBits ≠ 0 := by decide

/-! INIT and PUSH (V-I2, V-I3, V-U3, V-U5). -/

theorem test_init_from_cursor_7 :
    cursorOf (exec (.init 0) (small tableT1 7 (oneSlot 6 0x3F800000#32))) = some 0 ∧
    slotOf (exec (.init 0) (small tableT1 7 (oneSlot 6 0x3F800000#32))) 6 = some 0#32 := by decide +kernel

theorem test_init_ignored_bits :
    responseOf (exec (decode 0x1FFFFFFFF) (small tableT1 49 fun _ => 0x7FC00000#32)) = some ⟨false, 0#32⟩ ∧
    slotOf (exec (decode 0x1FFFFFFFF) (small tableT1 49 fun _ => 0x7FC00000#32)) 49 = some 0#32 := by decide +kernel

theorem test_push_wraps :
    cursorOf (exec (decode 0x240400000) (small tableT1 49 blank)) = some 0 ∧
    slotOf (exec (decode 0x240400000) (small tableT1 49 blank)) 49 = some 0x40400000#32 ∧
    slotOf (exec (decode 0x240400000) (small tableT1 49 blank)) 0 = some 0#32 := by decide +kernel

theorem test_push_keeps_signalling_nan :
    slotOf (exec (decode 0x27F800001) (small tableT1 0 blank)) 0 = some 0x7F800001#32 ∧
    cursorOf (exec (decode 0x27F800001) (small tableT1 0 blank)) = some 1 := by decide +kernel

/-! PRODUCE: V-P5 (all 50 taps, cursor wrapped to 0) and V-P9 (the order of the sum shows). -/

theorem test_produce_all_taps :
    responseOf (exec (decode 0x300000000) (small tableT1 0 fun i => round32 (i + 1) 1 false)) =
      some ⟨false, 0x43ACA800#32⟩ := by decide +kernel

theorem test_produce_order_of_sum :
    responseOf (exec (decode 0x300000000) (small tableT2 3 fun i => if i < 3 then 0x3F800000#32 else 0#32)) =
      some ⟨false, 0x4B800000#32⟩ := by decide +kernel

/-! TOFLOAT (V-F12, V-F15) and TOINT (V-T9, V-T27, and the table of V-T in one theorem each way). -/

theorem test_toFloat_negative :
    responseOf (exec (decode 0x40000CFC7) (small tableT1 0 blank)) = some ⟨false, 0xC640E400#32⟩ := by decide +kernel

theorem test_toFloat_upper_half_ignored :
    responseOf (exec (decode 0x412348000) (small tableT1 0 blank)) = some ⟨false, 0xC7000000#32⟩ := by decide +kernel

theorem test_toInt_vectors :
    ([(0x00000000, 0x00000000), (0x80000000, 0x00000000), (0x3F800000, 0x00000001), (0xBF800000, 0xFFFFFFFF),
      (0x3F7FFFFF, 0x00000000), (0xBF7FFFFF, 0x00000000), (0xBFC00000, 0xFFFFFFFF), (0xC0BCCCCD, 0xFFFFFFFB),
      (0x46FFFDFF, 0x00007FFE), (0x46FFFE00, 0x00007FFF), (0x46FFFE01, 0x00007FFF), (0x47800000, 0x00007FFF),
      (0x7F800000, 0x00007FFF), (0xC6FFFFFF, 0xFFFF8001), (0xC7000000, 0xFFFF8000), (0xC7000001, 0xFFFF8000),
      (0xD01502F9, 0xFFFF8000), (0xFF800000, 0xFFFF8000), (0x80000001, 0x00000000)] : List (Word × Word)).all
      (fun p => responseOf (exec (.toInt p.1) (small tableT1 0 blank)) == some ⟨false, p.2⟩) = true := by decide +kernel

theorem test_toInt_nan_gives_parameter :
    responseOf (exec (decode 0x5FFFFFFFF) { small tableT1 0 blank with toIntNan := 0x8001#16 }) =
      some ⟨false, 0xFFFF8001#32⟩ := by decide +kernel

/-! Illegal commands (V-X2, V-X4). -/

theorem test_illegal_six :
    responseOf (exec (decode 0x6FFFFFFFF) (small tableT1 1 blank)) = some ⟨true, 0#32⟩ ∧
    cursorOf (exec (decode 0x6FFFFFFFF) (small tableT1 1 blank)) = some 1 := by decide +kernel

theorem test_illegal_zero_is_no_push :
    responseOf (exec (decode 0x03F800000) (small tableT1 0 blank)) = some ⟨true, 0#32⟩ ∧
    slotOf (exec (decode 0x03F800000) (small tableT1 0 blank)) 0 = some 0#32 := by decide +kernel

/-! The arithmetic (V-A). -/

theorem test_fmul32_vectors :
    ([(0x3DCCCCCD, 0x3DCCCCCD, 0x3C23D70B), (0x3FC00000, 0x3FC00000, 0x40100000), (0x3F800001, 0x3F800001, 0x3F800002),
      (0x00000000, 0xBF800000, 0x80000000), (0x80000000, 0xBF800000, 0x00000000), (0x7F800000, 0x00000000, 0x7FC00000),
      (0x7F800000, 0xBF800000, 0xFF800000), (0x7F7FFFFF, 0x40000000, 0x7F800000), (0x00000001, 0x3F000000, 0x00000000),
      (0x00000003, 0x3F000000, 0x00000002), (0x00000001, 0x3E800000, 0x00000000), (0x00800000, 0x3F000000, 0x00400000),
      (0x00FFFFFF, 0x3F000000, 0x00800000), (0x1E000000, 0x1E000000, 0x00008000), (0x80000001, 0x3F000000, 0x80000000),
      (0x7F800001, 0x3F800000, 0x7FC00000)] : List (Word × Word × Word)).all
      (fun p => fmul32 p.1 p.2.1 == p.2.2) = true := by decide +kernel

theorem test_fadd32_vectors :
    ([(0x3F800000, 0x3F800000, 0x40000000), (0x4B800000, 0x3F800000, 0x4B800000), (0x4B800001, 0x3F800000, 0x4B800002),
      (0x00000000, 0x80000000, 0x00000000), (0x80000000, 0x80000000, 0x80000000), (0x3F800000, 0xBF800000, 0x00000000),
      (0x7F800000, 0xFF800000, 0x7FC00000), (0x7F800000, 0x3F800000, 0x7F800000), (0x7F7FFFFF, 0x7F7FFFFF, 0x7F800000),
      (0x7F7FFFFF, 0x73800000, 0x7F800000), (0x7F7FFFFF, 0x73000000, 0x7F800000), (0x00000001, 0x00000001, 0x00000002),
      (0x00800000, 0x80000001, 0x007FFFFF), (0x7FC00001, 0x3F800000, 0x7FC00000), (0x3DCCCCCD, 0x3DCCCCCD, 0x3E4CCCCD),
      (0x3E4CCCCD, 0x3DCCCCCD, 0x3E99999A)] : List (Word × Word × Word)).all
      (fun p => fadd32 p.1 p.2.1 == p.2.2) = true := by decide +kernel

/-- Rule R129's exactness clause read without a bound on j is false: `2^127 + 2^127` overflows (log entry 15). -/
theorem test_exact_sum_can_overflow : fadd32 0x7F000000#32 0x7F000000#32 = 0x7F800000#32 := by decide +kernel

/-! Edges (V-R1, V-R2). -/

theorem test_reset_discards_pending :
    responseOf (step { small tableT1 2 (oneSlot 0 0x3F800000#32) with response := some ⟨false, 1#32⟩, edges := [resetEdge] }) =
      none ∧
    cursorOf (step { small tableT1 2 (oneSlot 0 0x3F800000#32) with response := some ⟨false, 1#32⟩, edges := [resetEdge] }) =
      some 0 := by decide +kernel

theorem test_placed_word_runs_after_reset :
    cursorOf (step (State.reset.withFetchWord 35 0x23F800000)) = some 1 ∧
    slotOf (step (State.reset.withFetchWord 35 0x23F800000)) 0 = some 0x3F800000#32 := by decide +kernel

/-! The text of a listing (R72, and lines of programs P1, P3, P5). -/

theorem test_parse_push : parseLine ['p', 'u', 's', 'h', ' ', '5', '.', '9', ' ', ';', ' ', 'x'] =
    some { line := .command (.push (.bits 0x40BCCCCD#32)), expected := none } := by decide +kernel

theorem test_parse_expected : parseLine ['T', 'O', 'I', 'N', 'T', ' ', '$', ' ', '-', '>', ' ', 'e', 'r', 'r', '=', '0', ' ',
    'd', 'a', 't', 'a', '=', '0', 'x', 'F', 'F', 'F', 'F', '8', '0', '0', '0'] =
    some { line := .command (.toInt .last), expected := some (false, 0xFFFF8000#32) } := by decide +kernel

theorem test_parse_sample : parseLine ['S', 'A', 'M', 'P', 'L', 'E', ' ', '-', '3', '2', '7', '6', '8'] =
    some { line := .sample (.bits 0x8000#16), expected := none } := by decide +kernel

theorem test_parse_exponent : parseFloatArg ['1', 'e', '1', '0'] = some (.bits 0x501502F9#32) := by decide +kernel

theorem test_parse_refuses_integer_as_float : parseFloatArg ['1'] = none := by decide +kernel

/-- Program P3, first output: one SAMPLE of 32767 with table T1 gives 511. -/
theorem test_sample_sequence : (processSample 32767#16 (small tableT1 0 blank)).map Prod.fst = some 511#16 := by
  decide +kernel


/-! Witnesses: the hypotheses of each statement hold together somewhere, clause by clause at a boundary. -/

/-- A state with a pending response and edges placed. -/
def waiting (r : Option Response) (es : List ClockEdge) : State :=
  { small tableT1 49 (oneSlot 49 0x3F800000#32) with response := r, edges := es }

/-- An edge at which a command is offered and a response could be taken. -/
def busyEdge (rst : Bool) : ClockEdge := { rst := rst, cmdValid := true, cmdWord := 0x23F800000, rspReady := true }

theorem witness_DecodeOfEncode : ∃ i : Instr, i.wellFormed = true ∧ i = .illegalHigh 7#3 0xFFFFFFFF#32 :=
  ⟨_, by decide, rfl⟩

theorem witness_DecoderFollowsOpcodeMap : ∃ w : CommandWord, ∃ r' ∈ opcodeTable, r'.covers w = true ∧ w = 0x7FFFFFFFF :=
  ⟨_, ⟨"ILLEGAL", 0x600000000, 0x600000000⟩, by decide, by decide, rfl⟩

theorem witness_IgnoredBitsHaveNoEffect :
    (∃ w v : CommandWord, w ≠ v ∧ opField w = opField v ∧ opField w = 3#3) ∧
    ∃ w v : CommandWord, w ≠ v ∧ opField w = 4#3 ∧ opField v = 4#3 ∧ w.extractLsb' 0 16 = v.extractLsb' 0 16 :=
  ⟨⟨0x300000000, 0x3FFFFFFFF, by decide⟩, ⟨0x40000FFFF, 0x4FFFFFFFF, by decide⟩⟩

theorem witness_StepExecutesTransferredCommand : ∃ (s : State) (e : ClockEdge) (rest : List ClockEdge) (i : Instr),
    s.edges = e :: rest ∧ e.rst = false ∧ e.cmdValid = true ∧ s.response = none ∧ decode e.cmdWord = i ∧
      i.wellFormed = true :=
  ⟨waiting none [busyEdge false], busyEdge false, [], _, rfl, rfl, rfl, rfl, rfl, by decide⟩

theorem witness_ResetEdgeGivesResetState : ∃ (s : State) (e : ClockEdge) (rest : List ClockEdge),
    s.edges = e :: rest ∧ e.rst = true :=
  ⟨waiting (some ⟨false, 5#32⟩) [busyEdge true], _, _, rfl, rfl⟩

theorem witness_ResetDiscardsWorkInProgress : ∃ (s s' : State) (e f : ClockEdge) (rest : List ClockEdge), f.rst = true ∧
    s.edges = f :: rest ∧ s.response.isSome = true ∧ s'.edges = e :: f :: rest ∧ s'.cmdTransfer e = true :=
  ⟨waiting (some ⟨false, 5#32⟩) [busyEdge true], waiting none [busyEdge false, busyEdge true], busyEdge false, busyEdge true,
    [], rfl, rfl, rfl, rfl, by decide⟩

theorem witness_PendingResponseHoldsTheBlock : ∃ (s : State) (e : ClockEdge) (rest : List ClockEdge) (r : Response),
    s.edges = e :: rest ∧ e.rst = false ∧ s.response = some r ∧ e.rspReady = false :=
  ⟨waiting (some ⟨true, 0#32⟩) [offerEdge 0], _, _, _, rfl, rfl, rfl, rfl⟩

theorem witness_ResponseIsTransferred : ∃ (s : State) (e : ClockEdge) (rest : List ClockEdge) (r : Response),
    s.edges = e :: rest ∧ e.rst = false ∧ s.response = some r ∧ e.rspReady = true :=
  ⟨waiting (some ⟨true, 0#32⟩) [busyEdge false], _, _, _, rfl, rfl, rfl, rfl⟩

theorem witness_IdleKeepsState : (∃ s : State, s.edges = []) ∧ ∃ (s : State) (e : ClockEdge) (rest : List ClockEdge),
    s.edges = e :: rest ∧ e.rst = false ∧ e.cmdValid = false ∧ s.response = none :=
  ⟨⟨State.reset, rfl⟩, ⟨waiting none [takeEdge], _, _, rfl, rfl, rfl, rfl⟩⟩

theorem witness_ResponseWordOfEveryCommand : ∃ op : BitVec 3, op = 6#3 ∨ op = 7#3 := ⟨7#3, by decide⟩

theorem witness_IllegalCommandChangesNothing :
    (∃ op : BitVec 3, op = 6#3 ∨ op = 7#3) ∧
    ∃ (w : CommandWord) (s : State), (opField w = 0#3 ∨ opField w = 6#3 ∨ opField w = 7#3) ∧ s.response = none :=
  ⟨⟨6#3, by decide⟩, ⟨0, State.reset, by decide, rfl⟩⟩

theorem witness_PushStoresAndAdvances : ∃ (s : State) (i : Nat), i < 50 ∧ i ≠ s.writeCursor.val ∧ s.writeCursor.val = 49 :=
  ⟨waiting none [], 48, by decide, by decide, rfl⟩

theorem witness_IndexArithmeticIsModular : ∃ (s t : State) (k : Nat), k ≤ 49 ∧ s.writeCursor.val + 49 - k < 50 ∧
    ¬ t.writeCursor.val + 49 - k < 50 ∧ t.writeCursor.val = 49 :=
  ⟨small tableT1 0 blank, small tableT1 49 blank, 48, by decide, by decide, by decide, rfl⟩

theorem witness_PushesShiftTheWindow : ∃ (xs : List Word) (k k' : Nat), k < 50 ∧ k < xs.length ∧ k' < 50 ∧ ¬ k' < xs.length :=
  ⟨[1, 2, 3], 2, 49, by decide, by decide, by decide, by decide⟩

theorem witness_ProduceDependsOnWindowOnly : ∃ s t : State, s.coeff = t.coeff ∧ s.writeCursor ≠ t.writeCursor ∧
    ∀ k, k < 50 →
      s.history[(s.writeCursor.val + 50 - 1 - k) % 50]! = t.history[(t.writeCursor.val + 50 - 1 - k) % 50]! :=
  ⟨small tableT1 1 (oneSlot 0 0x3F800000#32), small tableT1 0 (oneSlot 49 0x3F800000#32), rfl, by decide, by decide +kernel⟩

theorem witness_ProduceIsIdempotent : ∃ between : List Instr, between.length = 2 ∧ ∀ i ∈ between, writesFilter i = false :=
  ⟨[.toInt 0, .illegalHigh 6 0], rfl, by decide⟩

theorem finite_tableT1 (w : Fin 50) (h : Nat → Word) : (small tableT1 w h).coeffFinite := by
  have h : ∀ k, k < tapCount → isFinite (tableT1[k % 50]'(Nat.mod_lt k (by decide))) = true := by decide +kernel
  exact h

theorem witness_ProduceOnZeroHistory :
    (∃ s : State, s.coeffFinite ∧ ∀ i, i < 50 → s.history[i]! = 0#32) ∧
    ∃ s : State, ¬ s.coeffFinite ∧ ∀ i, i < 50 → s.history[i]! = 0#32 := by
  refine ⟨⟨small tableT1 7 blank, finite_tableT1 _ _, by decide +kernel⟩,
    ⟨small (Vector.replicate 50 0x7F800000#32) 7 blank, fun h => absurd (h 49 (by decide)) (by decide +kernel), by decide +kernel⟩⟩

theorem witness_ImpulseResponseIsTheTable : ∃ s : State, s.coeffFinite := ⟨small tableT1 7 blank, finite_tableT1 _ _⟩

theorem witness_SpecialValuesInProduce :
    (∃ (s : State) (k : Nat), k < 50 ∧ isNaN (s.window k) = true) ∧
    (∃ (s : State) (k : Nat), k < 50 ∧ isInf (s.window k) = true ∧ isZero (s.coefficient k) = true) ∧
    ∃ (s : State) (sg : Bool) (k : Nat), k < 50 ∧ isInf (s.window k) = true ∧ isFinite (s.coefficient k) = true ∧
      isZero (s.coefficient k) = false ∧ infOf sg = infOf (signBit (s.window k) ^^ signBit (s.coefficient k)) ∧
      (∀ j, j < 50 → isNaN (fmul32 (s.coefficient j) (s.window j)) = false ∧
        fmul32 (s.coefficient j) (s.window j) ≠ infOf (!sg)) ∧
      ∀ j, j ≤ 50 → accumulate s.coefficient s.window j ≠ infOf (!sg) :=
  ⟨⟨small tableT1 0 (oneSlot 0 0x7F800001#32), 49, by decide, by decide +kernel⟩,
    ⟨small tableT2 0 (oneSlot 0 0x7F800000#32), 49, by decide, by decide +kernel, by decide +kernel⟩,
    ⟨small tableT1 1 (oneSlot 0 0xFF800000#32), true, 0, by decide, by decide +kernel, by decide +kernel, by decide +kernel,
      by decide +kernel, by decide +kernel, by decide +kernel⟩⟩

theorem witness_ToFloatIsExact : ∃ x : Half, x = 0#16 := ⟨0, rfl⟩

theorem witness_ToFloatPattern : ∃ (x : Half) (y : Word), x ≠ 0#16 ∧ isFinite y = true ∧ val y = (x.toInt : ℚ) :=
  ⟨0x8000#16, 0xC7000000#32, by decide, by decide, by decide +kernel⟩

theorem witness_ToFloatInjectiveAndMonotone :
    (∃ x y : Half, i16ToF32 x = i16ToF32 y) ∧ (∃ x y : Half, x.toInt < y.toInt ∧ x.toInt = -32768) ∧
    ∃ y : Word, isFinite y = true ∧ y ≠ 0x80000000#32 ∧ ∃ n : ℤ, -32768 ≤ n ∧ n ≤ 32767 ∧ val y = (n : ℚ) :=
  ⟨⟨1, 1, rfl⟩, ⟨0x8000#16, 0x8001#16, by decide, by decide⟩,
    ⟨0x46FFFE00#32, by decide, by decide, 32767, by decide, by decide, by decide +kernel⟩⟩

theorem witness_ToIntClampsThenTruncates :
    (∃ x : Word, isNaN x = true) ∧ (∃ x : Word, isFinite x = true ∧ val x > 32767) ∧
    (∃ x : Word, isFinite x = true ∧ val x < -32768) ∧
    ∃ x : Word, isFinite x = true ∧ ¬ val x > 32767 ∧ ¬ val x < -32768 :=
  ⟨⟨0x7F800001#32, by decide⟩, ⟨0x46FFFE01#32, by decide, by decide +kernel⟩,
    ⟨0xC7000001#32, by decide, by decide +kernel⟩, ⟨0xC7000000#32, by decide, by decide +kernel, by decide +kernel⟩⟩

theorem witness_ToIntOfNaN : ∃ x y : Word, x ≠ y ∧ isNaN x = true ∧ isNaN y = true :=
  ⟨0x7F800001#32, 0xFFFFFFFF#32, by decide, by decide, by decide⟩

theorem witness_ToIntCornerCases :
    (∃ x : Word, isFinite x = true ∧ 32767 < val x) ∧ (∃ x : Word, isFinite x = true ∧ -1 < val x ∧ val x < 1) ∧
    ∃ x : Word, isFinite x = true ∧ val x < -32768 :=
  ⟨⟨0x46FFFE01#32, by decide, by decide +kernel⟩, ⟨0xBF7FFFFF#32, by decide, by decide +kernel, by decide +kernel⟩,
    ⟨0xC7000001#32, by decide, by decide +kernel⟩⟩

theorem witness_TruncationIsAShift :
    (∃ x : Word, isFinite x = true ∧ -32768 ≤ val x ∧ val x ≤ 32767 ∧ biasedExp x < 127) ∧
    ∃ x : Word, isFinite x = true ∧ -32768 ≤ val x ∧ val x ≤ 32767 ∧ 127 ≤ biasedExp x ∧ biasedExp x - 127 = 15 :=
  ⟨⟨0x3F7FFFFF#32, by decide, by decide +kernel, by decide +kernel, by decide⟩,
    ⟨0xC7000000#32, by decide, by decide +kernel, by decide +kernel, by decide, by decide⟩⟩

theorem witness_ConversionRoundTrip : ∃ y : Word, isFinite y = true ∧ y ≠ 0x80000000#32 ∧
    ∃ z : ℤ, -32768 ≤ z ∧ z ≤ 32767 ∧ val y = (z : ℚ) :=
  ⟨0xC7000000#32, by decide, by decide, -32768, by decide, by decide, by decide +kernel⟩

theorem witness_ConversionsTouchNothing : ∃ s t : State, s.toIntNan = t.toIntNan ∧ s ≠ t :=
  ⟨small tableT1 0 blank, small tableT1 1 blank, rfl, by decide +kernel⟩

theorem witness_ValueOfFinitePattern :
    (∃ x : Word, 1 ≤ biasedExp x ∧ biasedExp x ≤ 254 ∧ biasedExp x = 254) ∧ (∃ x : Word, biasedExp x = 0) ∧
    (∃ x : Word, isFinite x = true ∧ 0 < val x ∧ classify x = .normal) ∧
    ∃ x y : Word, isFinite x = true ∧ isFinite y = true ∧ val x = val y ∧ x ≠ y :=
  ⟨⟨0x7F7FFFFF#32, by decide, by decide, by decide⟩, ⟨0x00000001#32, by decide⟩,
    ⟨0x00800000#32, by decide, by decide +kernel, by decide⟩,
    ⟨0x00000000#32, 0x80000000#32, by decide, by decide, by decide +kernel, by decide⟩⟩

theorem witness_ComparisonsFollowValues : ∃ x y z u c : Word, (c = 0x46FFFE00#32 ∨ c = 0xC7000000#32) ∧
    isNaN x = true ∧ y = 0x7F800000#32 ∧ z = 0xFF800000#32 ∧ isFinite u = true :=
  ⟨0x7FC00000#32, _, _, 0x46FFFE00#32, 0x46FFFE00#32, by decide, by decide, rfl, rfl, by decide⟩

/-- `2^24 + 1` is a tie between two floats. -/
theorem witness_RoundToNearestEven : ∃ (num : ℤ) (den : Nat) (z : Bool) (x : Word), 0 < den ∧
    |(num : ℚ) / den| < 2 ^ 128 - 2 ^ 103 ∧ isFinite x = true ∧ val x ≠ val (round32 num den z) ∧
    |val (round32 num den z) - (num : ℚ) / den| = |val x - (num : ℚ) / den| := by
  have h1 : val (round32 16777217 1 false) = 16777216 := by decide +kernel
  have h2 : val 0x4B800001#32 = 16777218 := by decide +kernel
  exact ⟨16777217, 1, false, 0x4B800001#32, by decide, by norm_num, by decide, by rw [h1, h2]; norm_num,
    by rw [h1, h2]; norm_num⟩

theorem witness_RoundSignZeroAndOverflow :
    (∃ (num : ℤ) (den : Nat), 0 < den ∧ num ≠ 0) ∧
    (∃ (num : ℤ) (den : Nat), 0 < den ∧ (2 : ℚ) ^ 128 - 2 ^ 103 ≤ |(num : ℚ) / den|) ∧
    ∃ (num num' : ℤ) (den den' : Nat), 0 < den ∧ 0 < den' ∧ den ≠ den' ∧ (num : ℚ) / den = (num' : ℚ) / den' :=
  ⟨⟨-1, 3, by decide, by decide⟩, ⟨2 ^ 128 - 2 ^ 103, 1, by decide, by norm_num⟩,
    ⟨1, 2, 3, 6, by decide, by decide, by decide, by norm_num⟩⟩

theorem witness_RoundKeepsRepresentable : ∃ (x : Word) (num : ℤ) (den : Nat), isFinite x = true ∧ isZero x = false ∧ 0 < den ∧
    (num : ℚ) / den = val x :=
  ⟨0xC7000000#32, -32768, 1, by decide, by decide, by decide, by
    have h : val 0xC7000000#32 = -32768 := by decide +kernel
    rw [h]
    norm_num⟩

theorem witness_NaNResultsAreCanonical :
    (∃ a b : Word, isNaN a = true ∨ isNaN b = true) ∧ (∃ a b : Word, isZero a = true ∧ isInf b = true) ∧
    (∃ a b : Word, isInf a = true ∧ isInf b = true ∧ signBit a ≠ signBit b) ∧
    (∃ a b : Word, isNaN (fmul32 a b) = true) ∧ ∃ a b : Word, isNaN (fadd32 a b) = true :=
  ⟨⟨0x7F800001#32, 0, by decide⟩, ⟨0x80000000#32, 0x7F800000#32, by decide, by decide⟩,
    ⟨0x7F800000#32, 0xFF800000#32, by decide, by decide, by decide⟩, ⟨0x7FC00001#32, 0, by decide +kernel⟩,
    ⟨0x7FC00001#32, 0, by decide +kernel⟩⟩

theorem witness_MultiplicationCases :
    (∃ a b : Word, isInf a = true ∧ isZero b = true) ∧
    (∃ a b : Word, isInf a = true ∧ isNaN b = false ∧ isZero b = false) ∧
    (∃ (a b : Word) (num : ℤ) (den : Nat), isFinite a = true ∧ isFinite b = true ∧ 0 < den ∧
      (num : ℚ) / den = val a * val b) ∧
    (∃ a b : Word, isZero a = true ∧ isFinite b = true) ∧
    (∃ a b : Word, isFinite a = true ∧ isFinite b = true ∧ 2 ^ 128 - 2 ^ 103 ≤ |val a * val b|) ∧
    ∃ a b : Word, isFinite a = true ∧ isFinite b = true ∧ |val a * val b| ≤ (2 : ℚ) ^ (-150 : ℤ) := by
  have h1 : val 0x3F800000#32 = 1 := by decide +kernel
  have h2 : val 0x7F7FFFFF#32 = (2 ^ 24 - 1) * 2 ^ 104 := by decide +kernel
  have h3 : val 0x40000000#32 = 2 := by decide +kernel
  have h4 : val 0x00000000#32 = 0 := by decide +kernel
  exact ⟨⟨0xFF800000#32, 0x80000000#32, by decide, by decide⟩, ⟨0xFF800000#32, 0xFF800000#32, by decide, by decide, by decide⟩,
    ⟨0x3F800000#32, 0x40000000#32, 2, 1, by decide, by decide, by decide, by rw [h1, h3]; norm_num⟩,
    ⟨0x80000000#32, 0xBF800000#32, by decide, by decide⟩,
    ⟨0x7F7FFFFF#32, 0x40000000#32, by decide, by decide, by rw [h2, h3]; norm_num⟩,
    ⟨0x3F800000#32, 0x00000000#32, by decide, by decide, by rw [h1, h4]; norm_num⟩⟩

theorem witness_MultiplicationConsequences :
    (∃ c : Word, isNaN c = false) ∧ (∃ c : Word, isFinite c = true) ∧
    ∃ (a b : Word) (m n : ℤ), isFinite a = true ∧ isFinite b = true ∧ val a = m ∧ val b = n ∧ |m * n| < 2 ^ 24 := by
  have h1 : val 0xBF800000#32 = -1 := by decide +kernel
  have h2 : val 0x4B7FFFFF#32 = 2 ^ 24 - 1 := by decide +kernel
  exact ⟨⟨0x7F800000#32, by decide⟩, ⟨0x80000000#32, by decide⟩,
    ⟨0xBF800000#32, 0x4B7FFFFF#32, -1, 2 ^ 24 - 1, by decide, by decide, by rw [h1]; norm_num, by rw [h2]; norm_num,
      by decide⟩⟩

theorem witness_AdditionCases :
    (∃ a b : Word, isNaN a = true ∨ isNaN b = true) ∧ (∃ a b : Word, isInf a = true ∧ isInf b = true) ∧
    (∃ a b : Word, isInf a = true ∧ isFinite b = true) ∧
    (∃ a b : Word, isFinite a = true ∧ isFinite b = true ∧ val a + val b = 0 ∧ a ≠ 0x80000000#32) ∧
    ∃ (a b : Word) (num : ℤ) (den : Nat), isFinite a = true ∧ isFinite b = true ∧ 0 < den ∧
      (num : ℚ) / den = val a + val b ∧ num ≠ 0 := by
  have h1 : val 0x3F800000#32 = 1 := by decide +kernel
  have h2 : val 0xBF800000#32 = -1 := by decide +kernel
  exact ⟨⟨0, 0x7FFFFFFF#32, by decide⟩, ⟨0x7F800000#32, 0xFF800000#32, by decide, by decide⟩,
    ⟨0x7F800000#32, 0xBF800000#32, by decide, by decide⟩,
    ⟨0x3F800000#32, 0xBF800000#32, by decide, by decide, by rw [h1, h2]; norm_num, by decide⟩,
    ⟨0x3F800000#32, 0x3F800000#32, 2, 1, by decide, by decide, by decide, by rw [h1]; norm_num, by decide⟩⟩

theorem witness_AdditionConsequences :
    (∃ c : Word, isNaN c = false ∧ c ≠ 0x80000000#32) ∧ (∃ c : Word, isNaN c = false ∧ isZero c = false) ∧
    (∃ (a b : Word) (m n j : ℤ), isFinite a = true ∧ isFinite b = true ∧ -149 ≤ j ∧ j ≤ 104 ∧
      val a = m * (2 : ℚ) ^ j ∧ val b = n * (2 : ℚ) ^ j ∧ |val a + val b| < (2 : ℚ) ^ (j + 24)) ∧
    ∃ a b : Word, isFinite a = true ∧ isFinite b = true ∧ val a + val b ≠ 0 := by
  have h1 : val 0x3F800000#32 = 1 := by decide +kernel
  have h2 : val 0x4B7FFFFE#32 = 2 ^ 24 - 2 := by decide +kernel
  exact ⟨⟨0x7F800000#32, by decide, by decide⟩, ⟨0x00000001#32, by decide, by decide⟩,
    ⟨0x3F800000#32, 0x4B7FFFFE#32, 1, 2 ^ 24 - 2, 0, by decide, by decide, by decide, by decide, by rw [h1]; norm_num,
      by rw [h2]; norm_num, by rw [h1, h2]; norm_num⟩,
    ⟨0x3F800000#32, 0x3F800000#32, by decide, by decide, by rw [h1]; norm_num⟩⟩

theorem witness_StepKeepsInvariant : ∃ s t : State, s.Inv ∧ step s = .next t ∧ t.response.isSome = true :=
  ⟨waiting none [busyEdge false], _, ⟨finite_tableT1 49 (oneSlot 49 0x3F800000#32), fun _ h => by simp [waiting, small] at h⟩, rfl, rfl⟩

theorem witness_StepKeepsHistoryInvariant : ∃ (log : List Word) (s t : State), historyHolds log s ∧ step s = .next t ∧
    logAfter log s = log ++ [0x3F800000#32] := by
  refine ⟨[0x40000000#32], { small tableT1 1 (oneSlot 0 0x40000000#32) with edges := [busyEdge false] }, _, ?_, rfl, ?_⟩
  · unfold historyHolds
    decide +kernel
  · decide +kernel

theorem witness_OnlyInitPushAndResetWriteTheFilter : ∃ (s t : State) (x : Word), step s = .next t ∧
    t.writeCursor ≠ s.writeCursor ∧ s.nextCommand = some (.push x) :=
  ⟨waiting none [busyEdge false], _, _, rfl, by decide +kernel, rfl⟩

theorem witness_ConstantsNeverChange : ∃ s t : State, step s = .next t ∧ t ≠ s :=
  ⟨waiting none [busyEdge true], _, rfl, by decide +kernel⟩

theorem witness_EdgesRefineOneAtATime : ∃ (es : List ClockEdge) (s : State), (∀ e ∈ es, e.rst = false) ∧
    transferred es s = [0x23F800000] :=
  ⟨[busyEdge false, busyEdge false], waiting none [], by decide, by decide +kernel⟩

theorem witness_FilterOutputIsConvolution : ∃ (xs : List Word) (n k k' : Nat), n < xs.length ∧ k ≤ n ∧ ¬ k' ≤ n ∧ k' < 50 :=
  ⟨[1, 2], 1, 1, 2, by decide⟩

theorem witness_ContractGivesConvolution : ∃ cs : List Instr, (∀ i ∈ cs, isInit i = false) ∧ filterContract false cs = true ∧
    cs.filterMap pushOperand = [0x3F800000#32] :=
  ⟨[.push 0x3F800000#32, .toInt 0, .produce 0], by decide, by decide, by decide⟩

theorem witness_SendingTransfersEveryWord : ∃ s : State, s.response = none := ⟨State.reset, rfl⟩

theorem witness_TakingTheResponseFreesTheBlock : ∃ (es es' : List ClockEdge) (s : State) (r : Response),
    s.response = some r ∧ (∀ e ∈ es, e.rst = false) ∧ (∀ e ∈ es, e.cmdValid = false) ∧ hostTakesResponse es = true ∧
    (∀ e ∈ es', e.rst = false) ∧ (∀ e ∈ es', e.cmdValid = false) ∧ hostTakesResponse es' = false :=
  ⟨[takeEdge], [], waiting (some ⟨false, 7#32⟩) [], _, rfl, by decide, by decide, by decide, by decide, by decide, by decide⟩

theorem witness_ChunkingDoesNotMatter : ∃ (cs ds : List (List Half)) (s : State), (∀ c ∈ cs, c ≠ []) ∧ (∀ d ∈ ds, d ≠ []) ∧
    cs.flatten = ds.flatten ∧ cs ≠ ds ∧ s.response = none :=
  ⟨[[1, 2], [3]], [[1], [2, 3]], State.reset, by decide, by decide, by decide, by decide, rfl⟩

theorem witness_StreamEqualsSampleSequence : ∃ (cs : List (List Half)) (s : State), cs.length = 2 ∧ (∀ c ∈ cs, c ≠ []) ∧
    s.response = none :=
  ⟨[[1, 2], [3]], State.reset, rfl, by decide, rfl⟩

theorem witness_BlocksAreIndependent : ∃ (blocks : List State) (n : Nat) (s : State), blocks[n]? = some s ∧
    blocks.length = 2 :=
  ⟨[State.reset, waiting none [busyEdge false]], 1, _, rfl, rfl⟩

end Sys2Proof.Tests
end

section
/-! The invariant at reset: the coefficient table is finite whatever its parameter is (R8). -/

namespace Sys2Proof.Machine

/-- A packed pattern is finite when its exponent field is below 255 (R120). -/
theorem isFinite_packF32 (s : Bool) {e : Nat} (he : e < 255) (f : Nat) : isFinite (packF32 s e f) = true := by
  rw [isFinite_iff, biasedExp_packF32]
  omega

/-- The one constraint on the open parameter `COEFF` reaches every pattern of the table (R8). -/
theorem isFinite_coeffTable {k : Nat} (hk : k < tapCount) : isFinite Config.coeffTable[k] = true := by
  rw [Config.coeffTable, Vector.getElem_ofFn]
  exact isFinite_packF32 _ (Config.coeff ⟨k, hk⟩).exponent.isLt _

theorem coeffFinite_reset : State.reset.coeffFinite := fun k hk => by
  rw [coefficient_of_lt State.reset hk]
  exact isFinite_coeffTable hk

/-- A state with no pending response has no malformed one. -/
theorem responseLegal_of_none {s : State} (h : s.response = none) : s.responseLegal := by
  simp [State.responseLegal, h]

/-- Settles O47: the table is finite by the type of its parameter, and no response is pending at reset. -/
theorem resetMeetsInvariant : Obligations.ResetMeetsInvariant :=
  ⟨coeffFinite_reset, responseLegal_of_none rfl⟩

end Sys2Proof.Machine
end

section
/-! What one step can do, read from the state before it; the constants and the invariant every step keeps (R25, R8, R64). -/

namespace Sys2Proof.Machine

theorem nextIsReset_nil {s : State} (h : s.edges = []) : s.nextIsReset = false := by
  simp [State.nextIsReset, h]

theorem nextCommand_nil {s : State} (h : s.edges = []) : s.nextCommand = none := by
  simp [State.nextCommand, h]

theorem nextIsReset_cons {s : State} {e : ClockEdge} {rest : List ClockEdge} (h : s.edges = e :: rest) :
    s.nextIsReset = e.rst := by
  simp [State.nextIsReset, h]

/-- The next command, where the coming edge transfers one (R61). -/
theorem nextCommand_of_transfer {s : State} {e : ClockEdge} {rest : List ClockEdge} (h : s.edges = e :: rest)
    (ht : e.rst = false ∧ s.response = none ∧ e.cmdValid = true) : s.nextCommand = some (decode e.cmdWord) := by
  simp [State.nextCommand, h, (cmdTransfer_iff s e).2 ht]

/-- No next command, where the coming edge transfers none (R61). -/
theorem nextCommand_of_not_transfer {s : State} {e : ClockEdge} {rest : List ClockEdge} (h : s.edges = e :: rest)
    (ht : ¬ (e.rst = false ∧ s.response = none ∧ e.cmdValid = true)) : s.nextCommand = none := by
  simp [State.nextCommand, h, (cmdTransfer_iff s e).not.2 ht]

/-- Everything a step can do: with one edge used up, a reset, no command (nothing at all, or the transfer of the
response), or the effect and the answer of the command the coming edge transfers. -/
theorem step_cases {s t : State} (h : step s = .next t) :
    ∃ u : State, t = { u with edges := s.edges.tail } ∧
      ((s.nextIsReset = true ∧ s.nextCommand = none ∧ u = s.resetBlock) ∨
       (s.nextIsReset = false ∧ s.nextCommand = none ∧ (u = s ∨ u = s.deliver)) ∨
       ∃ i, s.nextIsReset = false ∧ s.nextCommand = some i ∧ u = (filterEffect i s).respond (answer i s)) := by
  cases he : s.edges with
  | nil =>
    obtain rfl : s = t := by simpa [step_nil he] using h
    exact ⟨s, by rw [List.tail_nil, ← he], .inr (.inl ⟨nextIsReset_nil he, nextCommand_nil he, .inl rfl⟩)⟩
  | cons e rest =>
    obtain ⟨u, hu, -, hrest⟩ := edgeStep_edges e s
    obtain rfl : { u with edges := rest } = t := by simpa [step_cons he, hrest] using h
    refine ⟨u, rfl, ?_⟩
    rw [nextIsReset_cons he]
    obtain ⟨hr, hs⟩ | ⟨hr, hp, -, hs⟩ | ⟨hr, hp, hv, hs⟩ | ⟨hr, -, hv, hs⟩ := edgeStep_cases e s
    all_goals obtain rfl := Host.Outcome.next.inj (hu.symm.trans hs)
    · exact .inl ⟨hr, nextCommand_of_not_transfer he (by simp [hr]), rfl⟩
    · exact .inr (.inl ⟨hr, nextCommand_of_not_transfer he (fun ht => by simp [ht.2.1] at hp), .inr rfl⟩)
    · exact .inr (.inr ⟨_, hr, nextCommand_of_transfer he ⟨hr, hp, hv⟩, rfl⟩)
    · exact .inr (.inl ⟨hr, nextCommand_of_not_transfer he (fun ht => by simp [hv ht.2.1] at ht), .inl rfl⟩)

/-- Settles O51: reset, delivery and every command leave both constants, by the frame of each. -/
theorem constantsNeverChange : Obligations.ConstantsNeverChange := by
  intro s t h
  obtain ⟨u, rfl, ⟨-, -, rfl⟩ | ⟨-, -, rfl | rfl⟩ | ⟨i, -, -, rfl⟩⟩ := step_cases h
  · exact ⟨rfl, rfl⟩
  · exact ⟨rfl, rfl⟩
  · exact ⟨rfl, rfl⟩
  · obtain ⟨hcoeff, hnan, -, -⟩ := filterEffect_frame i s
    exact ⟨hcoeff, hnan⟩

/-- Finiteness of the table reads the table only (R8). -/
theorem coeffFinite_congr {s t : State} (hc : t.coeff = s.coeff) (h : s.coeffFinite) : t.coeffFinite := by
  simpa [State.coeffFinite, State.coefficient, hc] using h

/-- The legality of a pending response reads the response only (R64). -/
theorem responseLegal_congr {s t : State} (hr : t.response = s.response) (h : s.responseLegal) : t.responseLegal := by
  simpa [State.responseLegal, hr] using h

/-- A state in which a meaning's answer waits has a legal response (R64, R140). -/
theorem responseLegal_of_answer {i : Instr} {s t : State} (h : t.response = some (answer i s)) : t.responseLegal := by
  intro r hr
  obtain rfl : answer i s = r := by simpa [h] using hr
  exact answer_err i s

/-- A step leaves no response, the one that waited, or the answer of a command: a legal one each time (R64). -/
theorem step_keeps_responseLegal {s t : State} (hl : s.responseLegal) (h : step s = .next t) : t.responseLegal := by
  obtain ⟨u, rfl, ⟨-, -, rfl⟩ | ⟨-, -, rfl | rfl⟩ | ⟨i, -, -, rfl⟩⟩ := step_cases h
  · exact responseLegal_of_none rfl
  · exact responseLegal_congr rfl hl
  · exact responseLegal_of_none rfl
  · exact responseLegal_of_answer rfl

/-- Settles O48: no step changes the table, and a new response is a command's answer. -/
theorem stepKeepsInvariant : Obligations.StepKeepsInvariant := by
  rintro s t ⟨hfin, hlegal⟩ h
  exact ⟨coeffFinite_congr (constantsNeverChange s t h).1 hfin, step_keeps_responseLegal hlegal h⟩

end Sys2Proof.Machine
end

section
/-! The ring buffer: who writes it, and what it holds after any step (R21 to R23, R32, R82). -/

namespace Sys2Proof.Machine

/-- Reading `history` as an array is reading a slot, for an index in range. -/
theorem history_getElem! (s : State) {i : Nat} (hi : i < tapCount) : s.history[i]! = s.slot i := by
  rw [slot_of_lt s hi, getElem!_pos s.history i hi]

/-- The slot at the cursor is the far end of the window: it holds the oldest sample (R22, R83). -/
theorem history_at_cursor (s : State) : s.history[s.writeCursor.val]! = s.window 49 :=
  history_getElem! s s.writeCursor.isLt

/-- Settles O46: both a reset and INIT clear the ring. -/
theorem resetValues : Obligations.ResetValues := by
  refine ⟨fun i hi => ?_, rfl, rfl, rfl, fun a s => ⟨_, exec_eq (.init a) s, rfl, rfl⟩⟩
  rw [history_getElem! State.reset hi, slot_of_lt _ hi]
  exact Vector.getElem_replicate hi

/-- A PUSH leaves every slot but the one at the cursor (R82). -/
theorem storeSample_other_slot (s : State) (x : Word) {i : Nat} (hi : i < tapCount) (hne : i ≠ s.writeCursor.val) :
    (s.storeSample x).history[i]! = s.history[i]! := by
  rw [history_getElem! _ hi, history_getElem! _ hi, slot_storeSample, Nat.mod_eq_of_lt hi, if_neg hne]

/-- A command that does not write the filter has no effect on it (R21, R26). -/
theorem filterEffect_of_not_writesFilter {i : Instr} (h : writesFilter i = false) (s : State) : filterEffect i s = s := by
  cases i with
  | init | push => simp [writesFilter] at h
  | produce | toFloat | toInt | illegalZero | illegalHigh => rfl

/-- The commands that write the filter are INIT and PUSH (R21, R23). -/
theorem init_or_push_of_writesFilter {i : Instr} (h : writesFilter i = true) :
    (∃ a, i = .init a) ∨ ∃ x, i = .push x := by
  cases i with
  | init a => exact .inl ⟨a, rfl⟩
  | push x => exact .inr ⟨x, rfl⟩
  | produce | toFloat | toInt | illegalZero | illegalHigh => simp [writesFilter] at h

/-- Where a step changed the filter it was a reset, or it executed a command that writes the filter (R21, R23). -/
theorem step_filter_changed {s t : State} (h : step s = .next t)
    (hne : t.history ≠ s.history ∨ t.writeCursor ≠ s.writeCursor) :
    s.nextIsReset = true ∨ ∃ i, s.nextCommand = some i ∧ writesFilter i = true := by
  obtain ⟨u, rfl, ⟨hr, -, -⟩ | ⟨-, -, rfl | rfl⟩ | ⟨i, -, hi, rfl⟩⟩ := step_cases h
  · exact .inl hr
  · simp at hne
  · simp at hne
  · cases hw : writesFilter i with
    | true => exact .inr ⟨i, hi, hw⟩
    | false => simp [filterEffect_of_not_writesFilter hw] at hne

/-- A step that executes a PUSH stores its operand at the cursor (R82). -/
theorem step_push_history {s t : State} (h : step s = .next t) {x : Word} (hx : s.nextCommand = some (.push x)) :
    t.history = (s.storeSample x).history := by
  obtain ⟨u, rfl, ⟨-, hn, -⟩ | ⟨-, hn, -⟩ | ⟨i, -, hi, rfl⟩⟩ := step_cases h
  · simp [hn] at hx
  · simp [hn] at hx
  · obtain rfl : i = .push x := by simpa [hi] using hx
    rfl

/-- Settles O50: a changed filter means a reset or a writing command, and a store changes the slot at the cursor only. -/
theorem onlyInitPushAndResetWriteTheFilter : Obligations.OnlyInitPushAndResetWriteTheFilter := by
  intro s t h
  constructor
  · intro hne
    obtain hr | ⟨i, hi, hw⟩ := step_filter_changed h hne
    · exact .inl hr
    · obtain ⟨a, rfl⟩ | ⟨x, rfl⟩ := init_or_push_of_writesFilter hw
      · exact .inr (.inl ⟨a, hi⟩)
      · exact .inr (.inr ⟨x, hi⟩)
  · intro x hx i hi hne
    rw [step_push_history h hx]
    exact storeSample_other_slot s x hi hne

/-- The exact invariant reads the window only. -/
theorem historyHolds_congr {log : List Word} {s t : State} (hw : ∀ k, t.window k = s.window k) (h : historyHolds log s) :
    historyHolds log t :=
  fun k hk => (hw k).trans (h k hk)

/-- A cleared ring holds the empty log (R22, R32, R80). -/
theorem historyHolds_of_cleared {s : State} (h : s.history = Vector.replicate tapCount 0#32) : historyHolds [] s :=
  fun k _ => window_of_cleared h k

/-- A stored sample is the newest of the log, and every other one is a push older (R22). -/
theorem historyHolds_storeSample {log : List Word} {s : State} (h : historyHolds log s) (x : Word) :
    historyHolds (log ++ [x]) (s.storeSample x) := by
  intro k hk
  cases k with
  | zero => simp [window_storeSample_zero]
  | succ k => simpa [window_storeSample_succ s x k hk] using h k (Nat.lt_of_succ_lt hk)

/-- A command's effect on the filter keeps the invariant, for the log that the step's command leaves (R22). -/
theorem historyHolds_filterEffect {log : List Word} {s : State} (h : historyHolds log s) {i : Instr}
    (hr : s.nextIsReset = false) (hi : s.nextCommand = some i) : historyHolds (logAfter log s) (filterEffect i s) := by
  cases i with
  | init a => simpa [logAfter, filterEffect, hr, hi] using historyHolds_of_cleared (clearHistory_history s)
  | push x => simpa [logAfter, filterEffect, hr, hi] using historyHolds_storeSample h x
  | produce | toFloat | toInt | illegalZero | illegalHigh => simpa [logAfter, filterEffect, hr, hi] using h

/-- Every step keeps the exact invariant on `history` (R22). -/
theorem step_keeps_historyHolds {log : List Word} {s t : State} (hl : historyHolds log s) (h : step s = .next t) :
    historyHolds (logAfter log s) t := by
  obtain ⟨u, rfl, ⟨hr, -, rfl⟩ | ⟨hr, hn, hu⟩ | ⟨i, hr, hi, rfl⟩⟩ := step_cases h
  · simpa [logAfter, hr] using historyHolds_of_cleared rfl
  · have hlog : logAfter log s = log := by simp [logAfter, hr, hn]
    rw [hlog]
    obtain rfl | rfl := hu <;> exact historyHolds_congr (window_congr rfl rfl) hl
  · exact historyHolds_congr (window_congr rfl rfl) (historyHolds_filterEffect hl hr hi)

/-- Settles O49: the ring is cleared at reset, every step keeps the invariant, and the cursor's slot is the window's end. -/
theorem stepKeepsHistoryInvariant : Obligations.StepKeepsHistoryInvariant :=
  ⟨historyHolds_of_cleared rfl, fun _ _ _ hl h => step_keeps_historyHolds hl h,
    fun _ s hl => (history_at_cursor s).trans (hl 49 (by decide))⟩

end Sys2Proof.Machine
end

section
/-! Runs of commands: a run of pushes shifts the window (R22, R85), and a run of commands that do not write the filter only
adds responses (R26). -/

namespace Sys2Proof.Machine

/-- Settles O20, by induction on the pushes from the last one back: the last PUSH is the newest sample. -/
theorem pushesShiftTheWindow : Obligations.PushesShiftTheWindow := by
  intro xs s
  induction xs using List.reverseRecOn with
  | nil => exact ⟨s, rfl, (Nat.mod_eq_of_lt s.writeCursor.isLt).symm, fun k _ => rfl⟩
  | append_singleton xs x ih =>
    obtain ⟨t, hrun, hcursor, hwindow⟩ := ih
    refine ⟨((t.storeSample x).respond (okResponse 0#32)).deliver, ?_, ?_, fun k hk => ?_⟩
    · rw [List.map_append, runCommands_append, hrun]
      rfl
    · simp only [deliver_writeCursor, respond_writeCursor, storeSample_writeCursor, advance, hcursor, tapCount,
        List.length_append, List.length_singleton]
      omega
    · have hstored : ((t.storeSample x).respond (okResponse 0#32)).deliver.window k = (t.storeSample x).window k :=
        window_congr rfl rfl k
      rw [hstored]
      cases k with
      | zero => simp [window_storeSample_zero]
      | succ k =>
        rw [window_storeSample_succ t x k hk, hwindow k (Nat.lt_of_succ_lt hk)]
        simp

/-- PRODUCE answers the dot product (R84). -/
theorem answer_produce (a : Word) (s : State) : answer (.produce a) s = okResponse s.dotProduct := rfl

/-- A meaning's answer does not read the responses, neither the waiting one nor those transferred (R26). -/
theorem answer_of_responses (i : Instr) (s : State) (r : Option Response) (rs : List Response) :
    answer i { s with response := r, taken := rs } = answer i s := by
  cases i <;> rfl

/-- A run of commands that do not write the filter adds to the transferred responses what each command answers in the
first state, and changes nothing else but the waiting response, which the first of them replaces (R26, log entry 11). -/
theorem runCommands_of_not_writesFilter {i : Instr} {is : List Instr} (h : ∀ j ∈ i :: is, writesFilter j = false)
    (s : State) :
    runCommands (i :: is) s =
      some { s with response := none, taken := s.taken ++ (i :: is).map fun j => answer j s } := by
  induction is generalizing i s with
  | nil =>
    rw [runCommands_cons, filterEffect_of_not_writesFilter (h i List.mem_cons_self)]
    rfl
  | cons j js ih =>
    rw [runCommands_cons, filterEffect_of_not_writesFilter (h i List.mem_cons_self),
      ih fun k hk => h k (List.mem_cons_of_mem i hk)]
    simp [State.deliver, State.respond, answer_of_responses]

/-- Settles O23: every command of the run answers as in the first state, so both PRODUCE commands give its dot product. -/
theorem produceIsIdempotent : Obligations.ProduceIsIdempotent := by
  intro s a b between hbetween
  have hnone : ∀ i ∈ .produce a :: (between ++ [.produce b]), writesFilter i = false := by
    simpa [writesFilter, or_imp, forall_and] using hbetween
  refine ⟨_, runCommands_of_not_writesFilter hnone s, rfl, rfl, ?_, ?_⟩
  · simp [answer_produce, List.getLast?_cons]
  · simp only [List.length_append, List.length_map, List.length_cons, List.length_nil]
    omega

end Sys2Proof.Machine
end

section
/-! Several blocks side by side: a step of one block leaves every other as it was, and steps that block as it would step
alone (R48, R149). -/

namespace Sys2Proof.Machine

/-- A step always answers with a next state: an edge never faults (R89), and without an edge the state stays. -/
theorem exists_step_next (s : State) : ∃ t, step s = .next t := by
  cases he : s.edges with
  | nil => exact ⟨s, step_nil he⟩
  | cons e rest =>
    obtain ⟨t, ht, -⟩ := edgeStep_edges e { s with edges := rest }
    exact ⟨t, (step_cons he).trans ht⟩

/-- A step of a block that is not in the list changes nothing. -/
theorem stepBlock_of_none {n : Nat} {blocks : List State} (h : blocks[n]? = none) :
    stepBlock n blocks = some blocks := by
  simp [stepBlock, h]

/-- A step of a block of the list replaces that block by its next state. -/
theorem stepBlock_of_some {n : Nat} {blocks : List State} {s t : State} (h : blocks[n]? = some s)
    (hstep : step s = .next t) : stepBlock n blocks = some (blocks.set n t) := by
  simp [stepBlock, h, hstep]

theorem runBlocks_cons {n : Nat} {blocks mid : List State} (h : stepBlock n blocks = some mid) (order : List Nat) :
    runBlocks (n :: order) blocks = runBlocks order mid := by
  simp [runBlocks, h]

theorem runAlone_succ {s t : State} (h : step s = .next t) (k : Nat) : runAlone (k + 1) s = runAlone k t := by
  simp [runAlone, h]

/-- All that a step of block `m` does: the other blocks stay, and block `m` is where its own step alone brings it. -/
theorem stepBlock_frame_and_effect (m : Nat) (blocks : List State) :
    ∃ mid, stepBlock m blocks = some mid ∧ (∀ n, m ≠ n → mid[n]? = blocks[n]?) ∧
      ∀ s, blocks[m]? = some s → ∃ t, step s = .next t ∧ mid[m]? = some t := by
  cases hm : blocks[m]? with
  | none => exact ⟨blocks, stepBlock_of_none hm, fun _ _ => rfl, nofun⟩
  | some s =>
    obtain ⟨t, ht⟩ := exists_step_next s
    obtain ⟨hlt, -⟩ := List.getElem?_eq_some_iff.1 hm
    refine ⟨blocks.set m t, stepBlock_of_some hm ht, fun n hn => List.getElem?_set_ne hn, ?_⟩
    rintro _ ⟨⟩
    exact ⟨t, ht, List.getElem?_set_self hlt⟩

/-- Settles O59, by induction on the interleaving: its first step either is the block's own first step or leaves the
block where it was. -/
theorem blocksAreIndependent : Obligations.BlocksAreIndependent := by
  intro order
  induction order with
  | nil => exact fun blocks => ⟨blocks, rfl, fun _ s hs => ⟨s, rfl, hs⟩⟩
  | cons m order ih =>
    intro blocks
    obtain ⟨mid, hmid, hframe, heffect⟩ := stepBlock_frame_and_effect m blocks
    obtain ⟨after, hrun, halone⟩ := ih mid
    refine ⟨after, (runBlocks_cons hmid order).trans hrun, fun n s hs => ?_⟩
    by_cases hn : m = n
    · subst hn
      obtain ⟨t, hstep, ht⟩ := heffect s hs
      rw [List.count_cons_self, runAlone_succ hstep]
      exact halone m t ht
    · rw [List.count_cons_of_ne hn]
      exact halone n s ((hframe n hn).trans hs)

end Sys2Proof.Machine
end

section
/-! The decoder and the encoder: the eight opcodes, what the decoder reads for each, and the rows of the opcode table
(30_encoding.md R62 to R70). -/

namespace Sys2Proof

/-- The decoder on a word put together from its fields. -/
@[simp] theorem decode_append (op : BitVec 3) (arg : Word) : decode (op ++ arg) = decodeFields op arg := by
  simp [decode]

/-- The two fields of a well-formed instruction decode to it, constructor by constructor. -/
theorem decodeFields_opcode_operandWord {i : Instr} (h : i.wellFormed = true) :
    decodeFields i.opcode i.operandWord = i := by
  cases i with
  | init a => exact (Laws.EncodeFields.init a h).2
  | push x => exact (Laws.EncodeFields.push x h).2
  | produce a => exact (Laws.EncodeFields.produce a h).2
  | toFloat hi x => exact (Laws.EncodeFields.toFloat hi x h).2
  | toInt x => exact (Laws.EncodeFields.toInt x h).2
  | illegalZero a => exact (Laws.EncodeFields.illegalZero a h).2
  | illegalHigh op a => exact (Laws.EncodeFields.illegalHigh op a h).2

/-- Settles O1: the decoder reads the two fields the encoder wrote, and these decode to the instruction. -/
theorem decodeOfEncode : Obligations.DecodeOfEncode := by
  intro i h
  rw [encode, decode_append, decodeFields_opcode_operandWord h]

/-- The eight opcodes (R66). -/
theorem opcode_cases (op : BitVec 3) :
    op = 0#3 ∨ op = 1#3 ∨ op = 2#3 ∨ op = 3#3 ∨ op = 4#3 ∨ op = 5#3 ∨ op = 6#3 ∨ op = 7#3 := by
  decide +revert

/-- The decoder answers with a well-formed instruction for any opcode (R69, R70). -/
theorem wellFormed_decodeFields (op : BitVec 3) (arg : Word) : (decodeFields op arg).wellFormed = true := by
  obtain rfl | rfl | rfl | rfl | rfl | rfl | rfl | rfl := opcode_cases op <;> rfl

/-- The decoder keeps the opcode. -/
@[simp] theorem opcode_decodeFields (op : BitVec 3) (arg : Word) : (decodeFields op arg).opcode = op := by
  obtain rfl | rfl | rfl | rfl | rfl | rfl | rfl | rfl := opcode_cases op <;> rfl

/-- The decoder keeps every operand bit; TOFLOAT holds them as two halves (R63, log entry 9). -/
@[simp] theorem operandWord_decodeFields (op : BitVec 3) (arg : Word) : (decodeFields op arg).operandWord = arg := by
  obtain rfl | rfl | rfl | rfl | rfl | rfl | rfl | rfl := opcode_cases op <;>
    simp [decodeFields, Instr.operandWord, halves_append]

/-- Settles O2: the decoder keeps both fields, and a word is its two fields. -/
theorem encodeOfDecode : Obligations.EncodeOfDecode := by
  refine fun w => ⟨wellFormed_decodeFields _ _, ?_⟩
  rw [encode, decode, opcode_decodeFields, operandWord_decodeFields, fields_append]

/-- The decoder's choice of instruction looks at the opcode alone (R66). -/
theorem mnemonic_decodeFields (op : BitVec 3) (arg : Word) :
    (decodeFields op arg).mnemonic = (decodeFields op 0#32).mnemonic := by
  obtain rfl | rfl | rfl | rfl | rfl | rfl | rfl | rfl := opcode_cases op <;> rfl

/-- A mask with no operand bit reads the opcode alone. -/
theorem append_and_mask (op mask : BitVec 3) (arg : Word) :
    (op ++ arg : CommandWord) &&& (mask ++ 0#32 : CommandWord) = (op &&& mask) ++ 0#32 :=
  BitVec.and_append.trans (by rw [BitVec.and_zero])

/-- A row of the table covers a word by its opcode alone (R66). -/
theorem covers_append {r : OpcodeRow} (hr : r ∈ opcodeTable) (op : BitVec 3) (arg : Word) :
    r.covers (op ++ arg) = r.covers (op ++ 0#32) := by
  have hmask : ∀ r ∈ opcodeTable, argField r.maskBits = 0#32 := by decide
  rw [OpcodeRow.covers, OpcodeRow.covers, ← fields_append r.maskBits, hmask r hr, append_and_mask, append_and_mask]

/-- Among the eight words with operand 0, each falls under one row of the table, that of its mnemonic (R66). -/
theorem existsUnique_row_of_opcode : ∀ op : BitVec 3, ∃ r ∈ opcodeTable, r.covers (op ++ 0#32) = true ∧
    r.mnemonic = (decodeFields op 0#32).mnemonic ∧ ∀ r' ∈ opcodeTable, r'.covers (op ++ 0#32) = true → r' = r := by
  decide

/-- Settles O3: the opcode map is the decoder's own case split, and the rows of the table look at the opcode alone, so that
the eight words with operand 0 decide for all. -/
theorem decoderFollowsOpcodeMap : Obligations.DecoderFollowsOpcodeMap := by
  refine ⟨fun arg => ?_, by decide, fun w => ?_⟩
  · simp only [decode_append]
    exact ⟨rfl, rfl, rfl, rfl, rfl, rfl, rfl, rfl⟩
  · obtain ⟨r, hr, hcovers, hname, hunique⟩ := existsUnique_row_of_opcode (opField w)
    rw [← fields_append w, decode_append]
    refine ⟨r, hr, (covers_append hr _ _).trans hcovers, hname.trans (mnemonic_decodeFields _ _).symm, fun r' hr' h => ?_⟩
    exact hunique r' hr' ((covers_append hr' _ _).symm.trans h)

end Sys2Proof
end

section
/-! What a command answers and which operand bits it reads (30_encoding.md R64, R68, R140, R141). -/

namespace Sys2Proof.Machine

/-- Executing a command leaves its answer, as a response word, on the response channel (R64). -/
theorem exec_rspWord (i : Instr) (s : State) {v : ResponseWord} (h : (answer i s).word = v) :
    ∃ t, exec i s = .next t ∧ t.rspWord = some v :=
  ⟨_, exec_eq i s, congrArg some h⟩

/-- The response word of a command that only acknowledges: all 33 bits zero (R64). -/
theorem okResponse_zero_word : (okResponse 0#32).word = 0#33 := by decide

/-- Settles O14: each command's answer, as a word. -/
theorem responseWordOfEveryCommand : Obligations.ResponseWordOfEveryCommand :=
  fun s a x hi n op => ⟨exec_rspWord (.init a) s okResponse_zero_word, exec_rspWord (.push x) s okResponse_zero_word,
    exec_rspWord (.produce a) s rfl, exec_rspWord (.toFloat hi n) s rfl, exec_rspWord (.toInt x) s rfl,
    exec_rspWord (.illegalZero a) s rfl, fun _ => exec_rspWord (.illegalHigh op a) s rfl⟩

/-- The opcode field as a number: what stands above the 32 operand bits (R62). -/
theorem toNat_opField (w : CommandWord) : (opField w).toNat = w.toNat / 2 ^ 32 := by
  have hw : w.toNat < 2 ^ 35 := w.isLt
  rw [opField, BitVec.extractLsb'_toNat, Nat.shiftRight_eq_div_pow]
  omega

/-- The answer to a decoded command has `err = 1` for a reserved opcode only (R140, R141). -/
theorem answer_decodeFields_err_iff (op : BitVec 3) (arg : Word) (s : State) :
    (answer (decodeFields op arg) s).err = true ↔ op.toNat = 0 ∨ op.toNat = 6 ∨ op.toNat = 7 := by
  obtain rfl | rfl | rfl | rfl | rfl | rfl | rfl | rfl := opcode_cases op <;>
    simp [decodeFields, answer, okResponse, illegalResponse]

/-- Settles O15: the one response is the command's answer, which has `err = 1` for a reserved opcode only. -/
theorem errOnlyForReservedOpcodes : Obligations.ErrOnlyForReservedOpcodes := by
  intro w s
  obtain ⟨-, -, -, htaken⟩ := filterEffect_frame (decode w) s
  refine ⟨_, answer (decode w) s, exec_eq (decode w) s, rfl, htaken, ?_⟩
  rw [← toNat_opField]
  exact answer_decodeFields_err_iff (opField w) (argField w) s

/-- The decoder, once the opcode field is known. -/
theorem decode_of_opField {w : CommandWord} {op : BitVec 3} (h : opField w = op) :
    decode w = decodeFields op (argField w) := by
  rw [decode, h]

/-- Format H reads the low half of the operand word, the low 16 bits of the command word (R63). -/
theorem argLow_argField (w : CommandWord) : argLow (argField w) = w.extractLsb' 0 16 := by
  ext i hi
  simp [argLow, argField]

/-- INIT and PRODUCE read no operand bit (R68). -/
theorem exec_decodeFields_formatZ {op : BitVec 3} (h : op = 1#3 ∨ op = 3#3) (a b : Word) (s : State) :
    exec (decodeFields op a) s = exec (decodeFields op b) s := by
  obtain rfl | rfl := h <;> rfl

/-- TOFLOAT reads the low half of its operand word alone (R68). -/
theorem exec_decodeFields_formatH {a b : Word} (h : argLow a = argLow b) (s : State) :
    exec (decodeFields 4#3 a) s = exec (decodeFields 4#3 b) s := by
  change execToFloat (argHigh a) (argLow a) s = execToFloat (argHigh b) (argLow b) s
  rw [h]
  rfl

end Sys2Proof.Machine
end

section
/-! The words of the commands of a listing (30_encoding.md R72, R73). -/

namespace Sys2Proof.Machine

/-- The listing command INIT is sent with operand 0 (R72). -/
theorem word_init (last : Option Word) : AsmCommand.init.word last = some (1#3 ++ 0#32) := rfl

/-- The listing command PRODUCE is sent with operand 0 (R72). -/
theorem word_produce (last : Option Word) : AsmCommand.produce.word last = some (3#3 ++ 0#32) := rfl

/-- PUSH is sent with the value of its operand, where it has one (R72). -/
theorem word_push (last : Option Word) (x : FloatArg) :
    (AsmCommand.push x).word last = (x.value last).map (2#3 ++ ·) := by
  rw [AsmCommand.word, AsmCommand.instr, Option.map_map]
  rfl

/-- TOINT is sent with the value of its operand, where it has one (R72). -/
theorem word_toInt (last : Option Word) (x : FloatArg) :
    (AsmCommand.toInt x).word last = (x.value last).map (5#3 ++ ·) := by
  rw [AsmCommand.word, AsmCommand.instr, Option.map_map]
  rfl

/-- TOFLOAT is sent with the whole value of its operand, where it has one: the two halves are put together again
(R72, log entry 13). -/
theorem word_toFloat (last : Option Word) (x : IntArg) :
    (AsmCommand.toFloat x).word last = (x.value last).map (4#3 ++ ·) := by
  rw [AsmCommand.word, AsmCommand.instr, Option.map_map]
  congr 1
  funext d
  simp [encode, Instr.opcode, Instr.operandWord, halves_append]

/-- A command word as a number, `(op << 32) | arg` (R72). -/
theorem append_eq_ofNat (op : BitVec 3) (arg : Word) :
    (op ++ arg : CommandWord) = BitVec.ofNat 35 (op.toNat * 2 ^ 32 + arg.toNat) := by
  have hnat : (op ++ arg : CommandWord).toNat = op.toNat * 2 ^ 32 + arg.toNat := by
    rw [← Nat.shiftLeft_eq, Nat.shiftLeft_add_eq_or_of_lt arg.isLt]
    exact BitVec.toNat_append op arg
  rw [← hnat, BitVec.ofNat_toNat, BitVec.setWidth_eq]

/-- The integer operand of a listing has zeros in the ignored half (R68, R72). -/
theorem zero_append_half (x : Half) : (0#16 ++ x : Word) = x.zeroExtend 32 :=
  (BitVec.setWidth_eq_append (by decide)).symm

/-- Settles O5: what INIT, PRODUCE and TOFLOAT read of their operand word, and the words the assembler sends. -/
theorem ignoredBitsHaveNoEffect : Obligations.IgnoredBitsHaveNoEffect := by
  refine ⟨fun w v s hop hz => ?_, fun w v s hw hv hlow => ?_, by decide, by decide,
    fun last => ⟨word_init last, word_produce last, fun x => ?_⟩⟩
  · rw [decode_of_opField hop, decode]
    exact exec_decodeFields_formatZ (hop ▸ hz) _ _ s
  · rw [decode_of_opField hw, decode_of_opField hv]
    exact exec_decodeFields_formatH (by rw [argLow_argField, argLow_argField, hlow]) s
  · rw [word_toFloat, zero_append_half]
    rfl

/-- Settles O6: the word of each command, with its operand word where that is a number, and the two expansions. -/
theorem assemblerEncodesListing : Obligations.AssemblerEncodesListing := by
  intro last d x n f i
  refine ⟨word_init last, word_produce last, ?_, ?_, ?_, word_push _ _, word_toFloat _ _, word_toInt _ _, rfl, rfl⟩
  · exact (word_push last (.bits x)).trans (congrArg some (append_eq_ofNat 2#3 x))
  · exact (word_toInt last (.bits x)).trans (congrArg some (append_eq_ofNat 5#3 x))
  · have hn : (n.zeroExtend 32).toNat = n.toNat := BitVec.toNat_setWidth_of_le (by decide)
    rw [← hn]
    exact (word_toFloat last (.bits n)).trans (congrArg some (append_eq_ofNat 4#3 _))

end Sys2Proof.Machine
end

section
/-! The channels at one edge, and schedules of edges without a reset as one-at-a-time execution (30_encoding.md R61, R65;
20_memory.md R47; 70_reset_and_hazards.md R175). -/

namespace Sys2Proof.Machine

/-- An edge that transfers a command executes it (R61). -/
theorem edgeStep_of_cmdTransfer {e : ClockEdge} {s : State} (h : s.cmdTransfer e = true) :
    edgeStep e s = exec (decode e.cmdWord) s := by
  obtain ⟨hr, hs, -⟩ := (cmdTransfer_iff s e).1 h
  have hrsp : ¬ s.rspTransfer e = true := by simp [rspTransfer_iff, hs]
  rw [edgeStep, hr, if_neg Bool.false_ne_true, if_neg hrsp, if_pos h]

/-- An edge that transfers a response does nothing else (R61, log entry 7). -/
theorem edgeStep_of_rspTransfer {e : ClockEdge} {s : State} (h : s.rspTransfer e = true) :
    edgeStep e s = .next s.deliver := by
  obtain ⟨hr, -, -⟩ := (rspTransfer_iff s e).1 h
  rw [edgeStep, hr, if_neg Bool.false_ne_true, if_pos h]

/-- An edge at which a response waits and is not taken keeps the state (R65, R175). -/
theorem edgeStep_of_held {e : ClockEdge} {s : State} (hr : e.rst = false) (hs : s.response.isSome = true)
    (hy : e.rspReady = false) : edgeStep e s = .next s := by
  have hrsp : ¬ s.rspTransfer e = true := by simp [rspTransfer_iff, hy]
  have hcmd : ¬ s.cmdTransfer e = true := by
    rw [cmdTransfer_iff]
    rintro ⟨-, hn, -⟩
    simp [hn] at hs
  rw [edgeStep, hr, if_neg Bool.false_ne_true, if_neg hrsp, if_neg hcmd]

/-- A placed word is transferred and executed by the next step (log entry 6). -/
theorem step_placeCommand (s : State) (w : CommandWord) :
    step (s.placeCommand w) = exec (decode w) { s with response := none } := by
  rw [step_cons (placeCommand_edges s w)]
  exact edgeStep_of_cmdTransfer ((cmdTransfer_iff _ (offerEdge w)).2 ⟨rfl, rfl, rfl⟩)

/-- Settles O7: the edge transfers the command, and a placed word is at most 35 bits wide. -/
theorem stepExecutesTransferredCommand : Obligations.StepExecutesTransferredCommand := by
  refine ⟨fun s e rest i he hr hv hs hi _ => ?_, fun s n => ?_⟩
  · rw [step_cons he, ← hi]
    exact edgeStep_of_cmdTransfer ((cmdTransfer_iff _ e).2 ⟨hr, hs, hv⟩)
  · have hcut : BitVec.ofNat 35 (n % 2 ^ 35) = BitVec.ofNat 35 n := BitVec.eq_of_toNat_eq (by simp)
    rw [State.withFetchWord, hcut, step_placeCommand]

/-- Settles O10: the ports follow the waiting response, and an edge that does not take it keeps the state. -/
theorem pendingResponseHoldsTheBlock : Obligations.PendingResponseHoldsTheBlock := by
  intro s e rest r he hr hs hy
  refine ⟨by simp [State.cmdReady, hs], by simp [State.rspValid, hr, hs], ?_⟩
  rw [step_cons he]
  exact edgeStep_of_held hr (by simp [hs]) hy

/-- Settles O11: the edge transfers the response, which `deliver` records. -/
theorem responseIsTransferred : Obligations.ResponseIsTransferred := by
  intro s e rest r he hr hs hy
  rw [step_cons he, edgeStep_of_rspTransfer ((rspTransfer_iff _ e).2 ⟨hr, by simp [hs], hy⟩)]
  simp [State.deliver, hs]

/-- The state after a command and the transfer of its response (R47, R65). -/
def executed (i : Instr) (s : State) : State := ((filterEffect i s).respond (answer i s)).deliver

@[simp] theorem executed_response (i : Instr) (s : State) : (executed i s).response = none := rfl

/-- A command adds its answer to the transferred responses (R64, R65). -/
@[simp] theorem executed_taken (i : Instr) (s : State) : (executed i s).taken = s.taken ++ [answer i s] := by
  obtain ⟨-, -, -, htaken⟩ := filterEffect_frame i s
  rw [executed, deliver_taken, respond_taken, respond_response, htaken]
  rfl

/-- One-at-a-time execution is made of these states. -/
theorem runCommands_cons_executed (i : Instr) (rest : List Instr) (s : State) :
    runCommands (i :: rest) s = runCommands rest (executed i s) := runCommands_cons i rest s

theorem edgeNext_of_edgeStep {e : ClockEdge} {s t : State} (h : edgeStep e s = .next t) : edgeNext e s = some t := by
  rw [edgeNext, h]

theorem driveEdges_cons {e : ClockEdge} {s t : State} (h : edgeStep e s = .next t) (es : List ClockEdge) :
    driveEdges (e :: es) s = driveEdges es t := by
  rw [driveEdges, edgeNext_of_edgeStep h]

theorem transferred_cons {e : ClockEdge} {s t : State} (h : edgeStep e s = .next t) (es : List ClockEdge) :
    transferred (e :: es) s = (if s.cmdTransfer e then [e.cmdWord] else []) ++ transferred es t := by
  rw [transferred, edgeNext_of_edgeStep h]

/-- An edge without a reset transfers a command, where no response waits, or it changes nothing but that the waiting
response may be transferred. -/
theorem edgeStep_cases_of_no_reset {e : ClockEdge} (hr : e.rst = false) (s : State) :
    ∃ t, edgeStep e s = .next t ∧
      ((s.cmdTransfer e = true ∧ s.response = none ∧ t.deliver = executed (decode e.cmdWord) s) ∨
       (s.cmdTransfer e = false ∧ t.deliver = s.deliver)) := by
  cases hc : s.cmdTransfer e with
  | true =>
    obtain ⟨-, hs, -⟩ := (cmdTransfer_iff s e).1 hc
    exact ⟨_, (edgeStep_of_cmdTransfer hc).trans (exec_eq _ s), .inl ⟨rfl, hs, rfl⟩⟩
  | false =>
    obtain ⟨hr', -⟩ | ⟨-, -, -, hstep⟩ | ⟨-, hs, hv, -⟩ | ⟨-, -, -, hstep⟩ := edgeStep_cases e s
    · simp [hr] at hr'
    · exact ⟨s.deliver, hstep, .inr ⟨rfl, deliver_of_none _ rfl⟩⟩
    · simp [(cmdTransfer_iff s e).2 ⟨hr, hs, hv⟩] at hc
    · exact ⟨s, hstep, .inr ⟨rfl, rfl⟩⟩

/-- Settles O52, by induction on the edges: an edge that transfers a command is one command of the run, and every other
edge leaves the same state once the waiting response is transferred. -/
theorem edgesRefineOneAtATime : Obligations.EdgesRefineOneAtATime := by
  intro es
  induction es with
  | nil => exact fun s _ => ⟨s, rfl, rfl, rfl⟩
  | cons e es ih =>
    intro s hes
    obtain ⟨hr, hrest⟩ := List.forall_mem_cons.1 hes
    obtain ⟨u, hstep, hu⟩ := edgeStep_cases_of_no_reset hr s
    obtain ⟨t, hdrive, hrun, htaken⟩ := ih u hrest
    refine ⟨t, (driveEdges_cons hstep es).trans hdrive, ?_⟩
    rw [transferred_cons hstep]
    obtain ⟨hc, hs, hu⟩ | ⟨hc, hu⟩ := hu
    · rw [hu] at hrun htaken
      rw [if_pos hc, deliver_of_none s hs, List.singleton_append, List.map_cons, runCommands_cons_executed]
      refine ⟨hrun, ?_⟩
      simp only [htaken, executed_taken, List.length_append, List.length_cons, List.length_nil]
      omega
    · rw [hu] at hrun htaken
      rw [if_neg (by simp [hc]), List.nil_append]
      exact ⟨hrun, htaken⟩

theorem sendSchedule_cons (w : CommandWord) (ws : List CommandWord) :
    sendSchedule (w :: ws) = offerEdge w :: takeEdge :: sendSchedule ws := rfl

/-- A word is offered for one edge only, and taking the response leaves none waiting (R61). -/
theorem hostKeepsOffers_sendSchedule (ws : List CommandWord) : hostKeepsOffers false (sendSchedule ws) = true := by
  induction ws with
  | nil => rfl
  | cons w ws ih =>
    cases ws with
    | nil => rfl
    | cons v vs => exact ih

/-- The two edges of one word of the schedule: the word is transferred, then the response is. -/
theorem sendSchedule_cons_run (w : CommandWord) (ws : List CommandWord) {s : State} (h : s.response = none) :
    driveEdges (sendSchedule (w :: ws)) s = driveEdges (sendSchedule ws) (executed (decode w) s) ∧
      transferred (sendSchedule (w :: ws)) s = w :: transferred (sendSchedule ws) (executed (decode w) s) := by
  have hcmd : s.cmdTransfer (offerEdge w) = true := (cmdTransfer_iff s _).2 ⟨rfl, h, rfl⟩
  have hoffer := (edgeStep_of_cmdTransfer hcmd).trans (exec_eq (decode w) s)
  have htake : edgeStep takeEdge ((filterEffect (decode w) s).respond (answer (decode w) s)) =
      .next (executed (decode w) s) := edgeStep_of_rspTransfer rfl
  constructor
  · rw [sendSchedule_cons, driveEdges_cons hoffer, driveEdges_cons htake]
  · rw [sendSchedule_cons, transferred_cons hoffer, if_pos hcmd, transferred_cons htake]
    rfl

/-- Settles O55, by induction on the words: each takes its two edges and leaves no response waiting. -/
theorem sendingTransfersEveryWord : Obligations.SendingTransfersEveryWord := by
  intro ws s hs
  refine ⟨hostKeepsOffers_sendSchedule ws, ?_⟩
  induction ws generalizing s with
  | nil => exact ⟨rfl, s, rfl, hs, rfl⟩
  | cons w ws ih =>
    obtain ⟨hdrive, hwords⟩ := sendSchedule_cons_run w ws hs
    obtain ⟨hall, t, ht, hnone, htaken⟩ := ih (executed (decode w) s) rfl
    rw [hdrive, hwords, hall]
    refine ⟨rfl, t, ht, hnone, ?_⟩
    simp only [htaken, executed_taken, List.length_append, List.length_cons, List.length_nil]
    omega

end Sys2Proof.Machine
end

section
/-! The FILTER sequence as a convolution (70_reset_and_hazards.md R168): one sample after another, the window holds the
samples sent so far (R22), and PRODUCE answers their dot product with the table (R84). -/

namespace Sys2Proof.Machine

/-- The output of PRODUCE when the operands pushed so far, oldest first, are `log` (R22, R84). -/
def filterOutput (c : Nat → Word) (log : List Word) : Word :=
  accumulate c (fun k => log.reverse.getD k 0#32) tapCount

/-- The dot product of a ring that holds a log is the output for that log (R22, R84). -/
theorem dotProduct_of_historyHolds {log : List Word} {s : State} (h : historyHolds log s) :
    s.dotProduct = filterOutput s.coefficient log :=
  accumulate_congr (fun _ _ => rfl) h

/-- The coefficients read the table only. -/
theorem coefficient_congr {s t : State} (h : t.coeff = s.coeff) : t.coefficient = s.coefficient := by
  funext k
  simp [State.coefficient, h]

/-- The operand `$` after a command is the data of its answer (R72). -/
@[simp] theorem executed_lastData (i : Instr) (s : State) : (executed i s).lastData = some (answer i s).data := by
  simp [State.lastData]

/-- A command keeps the table (R25). -/
@[simp] theorem executed_coeff (i : Instr) (s : State) : (executed i s).coeff = s.coeff := by
  obtain ⟨hcoeff, -, -, -⟩ := filterEffect_frame i s
  exact hcoeff

/-- A command that denotes an instruction is sent, where no response waits, as that instruction (R61, R72). -/
theorem sendCommands_cons {c : AsmCommand} {i : Instr} {s : State} (hi : c.instr s.lastData = some i)
    (hwf : i.wellFormed = true) (hs : s.response = none) (cs : List AsmCommand) :
    sendCommands (c :: cs) s = sendCommands cs (executed i s) := by
  have hsend : sendCommand c s = some (executed i s) := by
    simp only [sendCommand, AsmCommand.word, hi, Option.map_some, send_of_none _ hs, decodeOfEncode i hwf]
    rfl
  rw [sendCommands, hsend]

/-- One FILTER, where no response waits: PUSH, then PRODUCE with its answer (R73). -/
theorem filterSample_eq {s : State} (hs : s.response = none) (x : Word) :
    filterSample x s =
      some ((executed (.push x) s).dotProduct, executed (.produce 0#32) (executed (.push x) s)) := by
  have hsend : sendCommands [.push (.bits x), .produce] s =
      some (executed (.produce 0#32) (executed (.push x) s)) := by
    rw [sendCommands_cons (i := .push x) rfl rfl hs, sendCommands_cons (i := .produce 0#32) rfl rfl rfl, sendCommands]
  rw [filterSample, AsmLine.expand, askCommands, hsend]
  simp [answer, okResponse]

/-- PUSH puts its operand at the new end of the log (R22). -/
theorem historyHolds_executed_push {log : List Word} {s : State} (h : historyHolds log s) (x : Word) :
    historyHolds (log ++ [x]) (executed (.push x) s) :=
  historyHolds_congr (window_congr rfl rfl) (historyHolds_storeSample h x)

/-- PRODUCE keeps the log (R84). -/
theorem historyHolds_executed_produce {log : List Word} {s : State} (h : historyHolds log s) (a : Word) :
    historyHolds log (executed (.produce a) s) :=
  historyHolds_congr (window_congr rfl rfl) h

/-- A stream of FILTER sequences, where no response waits: output `n` is that of the log with the first `n + 1` samples of
the stream behind it (R168). -/
theorem mapAccum_filterSample {log : List Word} {s : State} (hs : s.response = none) (hlog : historyHolds log s)
    (xs : List Word) :
    ∃ ys u, mapAccum filterSample xs s = some (ys, u) ∧ ys.length = xs.length ∧
      ∀ n, n < xs.length → ys[n]! = filterOutput s.coefficient (log ++ xs.take (n + 1)) := by
  induction xs generalizing log s with
  | nil => exact ⟨[], s, rfl, rfl, nofun⟩
  | cons x xs ih =>
    have hpushed := historyHolds_executed_push hlog x
    have hcoeff : (executed (.produce 0#32) (executed (.push x) s)).coefficient = s.coefficient :=
      coefficient_congr (by simp)
    obtain ⟨ys, u, hrun, hlength, houtput⟩ := ih rfl (historyHolds_executed_produce hpushed 0#32)
    refine ⟨(executed (.push x) s).dotProduct :: ys, u, ?_, congrArg (· + 1) hlength, fun n hn => ?_⟩
    · simp only [mapAccum, filterSample_eq hs, hrun]
    · cases n with
      | zero =>
        rw [← coefficient_congr (executed_coeff (.push x) s)]
        exact dotProduct_of_historyHolds hpushed
      | succ n =>
        rw [List.length_cons, Nat.succ_lt_succ_iff] at hn
        simpa [hcoeff] using houtput n hn

/-- The sample `k` samples before sample `n` of a stream, and `+0.0` before its first (R168). -/
theorem reverse_take_getD {xs : List Word} {n : Nat} (hn : n < xs.length) (k : Nat) :
    (xs.take (n + 1)).reverse.getD k 0#32 = if k ≤ n then xs[n - k]! else 0#32 := by
  have hlength : (xs.take (n + 1)).length = n + 1 := by
    rw [List.length_take]
    omega
  split
  case isTrue hk =>
    rw [List.getD_reverse k (by omega), hlength, Nat.add_sub_cancel, List.getD_eq_getElem _ _ (by omega),
      List.getElem_take, getElem!_pos xs (n - k) (by omega)]
  case isFalse hk =>
    exact List.getD_eq_default _ _ (by rw [List.length_reverse, hlength]; omega)

/-- The output for a log as the sum the rule writes: a fold over the taps, with the coefficients read from the table
(R84, R168). -/
theorem filterOutput_take (s : State) {xs : List Word} {n : Nat} (hn : n < xs.length) :
    filterOutput s.coefficient (xs.take (n + 1)) = (List.range 50).foldl (fun acc k =>
      fadd32 acc (fmul32 s.coeff[k]! (if k ≤ n then xs[n - k]! else 0#32))) 0#32 := by
  rw [← accumulate_eq_foldl (fun k => s.coeff[k]!) (fun k => if k ≤ n then xs[n - k]! else 0#32)]
  refine accumulate_congr (fun k hk => ?_) (fun k _ => reverse_take_getD hn k)
  rw [coefficient_of_lt s hk, getElem!_pos s.coeff k hk]

/-- Settles O53: INIT empties the log, and each output is that of the samples so far. -/
theorem filterOutputIsConvolution : Obligations.FilterOutputIsConvolution := by
  intro xs s
  have hempty : historyHolds [] (executed (.init 0#32) s) := historyHolds_of_cleared rfl
  obtain ⟨ys, u, hrun, hlength, houtput⟩ := mapAccum_filterSample rfl hempty xs
  refine ⟨executed (.init 0#32) s, ys, u, rfl, hrun, hlength, fun n hn => ?_⟩
  rw [houtput n hn, coefficient_congr (executed_coeff _ s)]
  exact filterOutput_take s hn

end Sys2Proof.Machine
end

section
/-! INIT and PUSH, the index arithmetic of the ring, and PRODUCE as a function of the table and the window
(40_filter_core.md R80 to R85, R88, R89). -/

namespace Sys2Proof.Machine

/-- Settles O13: an edge never stops the block, and without an edge the state stays. -/
theorem stepAlwaysAnswersNext : Obligations.StepAlwaysAnswersNext := exists_step_next

/-- Settles O17: what INIT leaves is written out by its meaning, and it is what a reset leaves (R32). -/
theorem initClearsHistory : Obligations.InitClearsHistory := by
  refine fun a s => ⟨_, exec_eq (.init a) s, rfl, fun i hi => ?_, rfl, rfl⟩
  rw [history_getElem! _ hi, slot_of_lt _ hi]
  exact Vector.getElem_replicate hi

/-- The slot at the cursor holds the operand after a PUSH, bit for bit (R82). -/
theorem storeSample_cursor_slot (s : State) (x : Word) : (s.storeSample x).history[s.writeCursor.val]! = x := by
  rw [history_getElem! _ s.writeCursor.isLt, slot_storeSample, if_pos (Nat.mod_eq_of_lt s.writeCursor.isLt)]

/-- A sample of the window is read from `history` at the index of R84, reduced modulo 50. -/
theorem window_eq_history (s : State) (k : Nat) :
    s.window k = s.history[(s.writeCursor.val + 50 - 1 - k) % 50]! := by
  have hlt : (s.writeCursor.val + 50 - 1 - k) % tapCount < tapCount := Nat.mod_lt _ (by decide)
  exact (getElem!_pos s.history _ hlt).symm

/-- Settles O18: PUSH is `storeSample`, and the slot at the cursor is the far end of the window. -/
theorem pushStoresAndAdvances : Obligations.PushStoresAndAdvances := fun x s =>
  ⟨_, exec_eq (.push x) s, storeSample_cursor_slot s x, fun _ hi hne => storeSample_other_slot s x hi hne, rfl, rfl, rfl,
    rfl, rfl, rfl, (history_at_cursor s).trans (window_eq_history s 49)⟩

/-- Settles O19: both sums stay below 100, so that one conditional subtraction reduces them modulo 50. -/
theorem indexArithmeticIsModular : Obligations.IndexArithmeticIsModular := by
  intro s x k hk
  have hcursor : s.writeCursor.val < 50 := s.writeCursor.isLt
  have hindex : (s.writeCursor.val + 50 - 1 - k) % 50 =
      if s.writeCursor.val + 49 - k < 50 then s.writeCursor.val + 49 - k else s.writeCursor.val + 49 - k - 50 := by
    split <;> omega
  refine ⟨⟨_, exec_eq (.push x) s, advance_val s.writeCursor⟩, by omega, ?_⟩
  rw [window_eq_history, hindex]

/-- PRODUCE writes the response, and nothing else (R84). -/
theorem exec_produce_of_dotProduct {s : State} {d : Word} (h : s.dotProduct = d) (a : Word) :
    exec (.produce a) s = .next { s with response := some ⟨false, d⟩ } := by
  rw [← h]
  exact exec_eq (.produce a) s

/-- Settles O21: the accumulator is the fold over the taps, with each operand read at its index. -/
theorem produceIsDotProduct : Obligations.ProduceIsDotProduct := by
  intro a s
  refine exec_produce_of_dotProduct ?_ a
  rw [← accumulate_eq_foldl (fun k => s.coeff[k]!) fun k => s.history[(s.writeCursor.val + 50 - 1 - k) % 50]!]
  refine accumulate_congr (fun k hk => ?_) fun k _ => window_eq_history s k
  rw [coefficient_of_lt s hk, getElem!_pos s.coeff k hk]

/-- Settles O22: the dot product reads the table and the window only. -/
theorem produceDependsOnWindowOnly : Obligations.ProduceDependsOnWindowOnly := by
  intro a b s t hcoeff hwindow
  have hdot : t.dotProduct = s.dotProduct := by
    refine accumulate_congr (fun k _ => by rw [coefficient_congr hcoeff]) fun k hk => ?_
    rw [window_eq_history, window_eq_history, hwindow k hk]
  exact ⟨_, _, _, exec_produce_of_dotProduct rfl a, exec_produce_of_dotProduct hdot b, rfl, rfl⟩

end Sys2Proof.Machine
end

section
/-! Rounding, products and sums of special operands: an exact value of the format is kept, a NaN is canonical and stays,
and an infinity stays until a NaN or an infinity of the other sign meets it (42_float_numerics.md R121 to R129). -/

namespace Sys2Proof.Machine

/-! Classes and exact values. -/

theorem not_nan_not_inf_of_isFinite {x : Word} (h : isFinite x = true) : isNaN x = false ∧ isInf x = false := by
  obtain ⟨-, hinf, hnan⟩ | ⟨hfin, -⟩ | ⟨hfin, -⟩ := finite_or_inf_or_nan x
  · exact ⟨hnan, hinf⟩
  · simp [hfin] at h
  · simp [hfin] at h

theorem not_nan_of_isFinite {x : Word} (h : isFinite x = true) : isNaN x = false := by
  obtain ⟨hnan, -⟩ := not_nan_not_inf_of_isFinite h
  exact hnan

theorem not_nan_of_isInf {x : Word} (h : isInf x = true) : isNaN x = false := by
  obtain ⟨-, hinf, -⟩ | ⟨-, -, hnan⟩ | ⟨-, hinf, -⟩ := finite_or_inf_or_nan x
  · simp [hinf] at h
  · exact hnan
  · simp [hinf] at h

@[simp] theorem isInf_infOf (s : Bool) : isInf (infOf s) = true := by
  rw [isInf_iff, infOf, biasedExp_packF32, fraction_packF32]
  exact ⟨rfl, rfl⟩

@[simp] theorem signBit_infOf (s : Bool) : signBit (infOf s) = s := signBit_packF32 s 255 0

@[simp] theorem isZero_zeroOf (s : Bool) : isZero (zeroOf s) = true := by
  rw [isZero_iff, zeroOf, biasedExp_packF32, fraction_packF32]
  exact ⟨rfl, rfl⟩

@[simp] theorem signBit_zeroOf (s : Bool) : signBit (zeroOf s) = s := signBit_packF32 s 0 0

theorem isFinite_of_isZero {x : Word} (h : isZero x = true) : isFinite x = true := by
  obtain ⟨he, -⟩ := (isZero_iff x).1 h
  rw [isFinite_iff, he]
  decide

/-- The significand of a normal pattern has its leading bit (R121). -/
theorem significand_of_normal {x : Word} (h : biasedExp x ≠ 0) : significand x = 2 ^ 23 + fraction x := if_neg h

theorem significand_of_exp_zero {x : Word} (h : biasedExp x = 0) : significand x = fraction x := if_pos h

/-- The zeros are the patterns of magnitude zero (R121). -/
theorem scaledMag_eq_zero_iff (x : Word) : scaledMag x = 0 ↔ isZero x = true := by
  rw [isZero_iff]
  by_cases he : biasedExp x = 0
  · simp [scaledMag, significand_of_exp_zero he, he]
  · simp [scaledMag, significand_of_normal he, he]

theorem scaled_eq_zero_iff (x : Word) : scaled x = 0 ↔ isZero x = true := by
  rw [← Int.natAbs_eq_zero, natAbs_scaled, scaledMag_eq_zero_iff]

/-- A value other than zero has the sign of its pattern. -/
theorem scaled_neg_iff {x : Word} (h : isZero x = false) : scaled x < 0 ↔ signBit x = true := by
  have hpos : 0 < scaledMag x := Nat.pos_of_ne_zero fun h0 => by simp [(scaledMag_eq_zero_iff x).1 h0] at h
  cases hs : signBit x with
  | true => simpa [scaled, hs] using hpos
  | false => simp [scaled, hs]

/-! Rounding an exact value of the format (R124). -/

/-- The exponent of a magnitude that is `m * 2^k` in units of the least subnormal. -/
theorem roundExp_of_scaled {n d m k : Nat} (hd : 0 < d) (h : n * 2 ^ 149 = m * 2 ^ k * d) :
    roundExp n d = Nat.log2 (m * 2 ^ k / 2 ^ 23) := by
  have hquot : n * 2 ^ 126 / d = m * 2 ^ k / 2 ^ 23 := by
    rw [← Nat.mul_div_mul_right (n * 2 ^ 126) d (show 0 < 2 ^ 23 by decide), mul_assoc n, ← pow_add, h, mul_comm d,
      Nat.mul_div_mul_right _ _ hd]
  rw [roundExp, hquot]

/-- Where the exponent is `k`, the significand is kept. -/
theorem roundSig_of_scaled {n d m k : Nat} (hd : 0 < d) (h : n * 2 ^ 149 = m * 2 ^ k * d) (hk : roundExp n d = k) :
    roundSig n d = m := by
  have hprod : m * 2 ^ k * d = m * (d * 2 ^ k) := by ring
  rw [roundSig, hk, h, hprod]
  exact divNearestEven_mul m (by positivity)

/-- The exponent that rounding finds for the magnitude of a finite pattern is the pattern's own. -/
theorem roundExp_of_scaledMag {x : Word} {n d : Nat} (hd : 0 < d) (h : n * 2 ^ 149 = scaledMag x * d) :
    roundExp n d = biasedExp x - 1 := by
  have hf := fraction_lt x
  rw [roundExp_of_scaled hd h]
  by_cases he : biasedExp x = 0
  · rw [significand_of_exp_zero he, he, pow_zero, mul_one, Nat.div_eq_of_lt hf]
    rfl
  · rw [significand_of_normal he]
    have hlow : 2 ^ (biasedExp x - 1) ≤ (2 ^ 23 + fraction x) * 2 ^ (biasedExp x - 1) / 2 ^ 23 := by
      rw [Nat.le_div_iff_mul_le (by decide), mul_comm]
      exact Nat.mul_le_mul_right _ (by omega)
    have hhigh : (2 ^ 23 + fraction x) * 2 ^ (biasedExp x - 1) / 2 ^ 23 < 2 ^ (biasedExp x - 1 + 1) := by
      rw [Nat.div_lt_iff_lt_mul (by decide)]
      calc (2 ^ 23 + fraction x) * 2 ^ (biasedExp x - 1)
          < 2 ^ 24 * 2 ^ (biasedExp x - 1) := Nat.mul_lt_mul_of_pos_right (by omega) (by positivity)
        _ = 2 ^ (biasedExp x - 1 + 1) * 2 ^ 23 := by ring
    exact (Nat.log2_eq_iff (by omega)).2 ⟨hlow, hhigh⟩

/-- The pattern of a finite significand and exponent that need no rounding. -/
theorem renormalise_significand {x : Word} (h : isFinite x = true) (s : Bool) :
    renormalise s (biasedExp x - 1) (significand x) = packF32 s (biasedExp x) (fraction x) := by
  have hf := fraction_lt x
  have hexp := biasedExp_lt x
  have hne := (isFinite_iff x).1 h
  by_cases he : biasedExp x = 0
  · rw [significand_of_exp_zero he, renormalise, if_neg (by omega), encodeRounded, if_neg (by omega), if_pos hf, he]
  · rw [significand_of_normal he, renormalise, if_neg (by omega), encodeRounded, if_neg (by omega), if_neg (by omega),
      Nat.sub_add_cancel (Nat.pos_of_ne_zero he), Nat.add_sub_cancel_left]

/-- An exact nonzero value of the format rounds to its own pattern (R121, R124). -/
theorem round32_of_scaled {x : Word} (hfin : isFinite x = true) (hzero : isZero x = false) {num : Int} {den : Nat}
    (hden : 0 < den) (h : num * 2 ^ 149 = scaled x * den) (z : Bool) : round32 num den z = x := by
  have hnum : num ≠ 0 := by
    rintro rfl
    have hx : scaled x ≠ 0 := fun h0 => by simp [(scaled_eq_zero_iff x).1 h0] at hzero
    simp [hx, hden.ne'] at h
  have hmag : num.natAbs * 2 ^ 149 = scaledMag x * den := by
    simpa [Int.natAbs_mul, natAbs_scaled] using congrArg Int.natAbs h
  have hsign : decide (num < 0) = signBit x := by
    have hiff : num < 0 ↔ scaled x < 0 := by
      rw [← not_le, ← not_le, ← mul_nonneg_iff_of_pos_right (show (0 : ℤ) < 2 ^ 149 by positivity), h,
        mul_nonneg_iff_of_pos_right (by exact_mod_cast hden)]
    simp [hiff, scaled_neg_iff hzero]
  have hexp := roundExp_of_scaledMag hden hmag
  rw [round32_of_ne_zero hnum, hsign, roundSig_of_scaled hden hmag hexp, hexp, renormalise_significand hfin,
    packF32_fields]

/-- Rounding the value of a finite pattern: the pattern, but for the sign of a zero (R124). -/
theorem round32_scaled {x : Word} (hfin : isFinite x = true) (z : Bool) :
    round32 (scaled x) (2 ^ 149) z = if isZero x then zeroOf z else x := by
  cases hzero : isZero x with
  | true => rw [(scaled_eq_zero_iff x).2 hzero, round32_zero, if_pos rfl]
  | false => exact round32_of_scaled hfin hzero (by positivity) (by norm_num) z

theorem isNaN_encodeRounded (s : Bool) (k m : Nat) : isNaN (encodeRounded s k m) = false := by
  rw [encodeRounded]
  split
  · exact not_nan_of_isInf (isInf_infOf s)
  · split
    · exact not_nan_of_isFinite (isFinite_packF32 s (by decide) m)
    · exact not_nan_of_isFinite (isFinite_packF32 s (by omega) _)

/-- Rounding gives no NaN (R124, R125). -/
theorem isNaN_round32 (num : Int) (den : Nat) (z : Bool) : isNaN (round32 num den z) = false := by
  rw [round32]
  split
  · exact not_nan_of_isFinite (isFinite_of_isZero (isZero_zeroOf z))
  · rw [renormalise]
    split <;> exact isNaN_encodeRounded _ _ _

/-! Products (R126, R127). -/

theorem fmul32_of_isNaN {a b : Word} (h : isNaN a = true ∨ isNaN b = true) : fmul32 a b = qnan :=
  if_pos (by simpa using h)

/-- Zero times infinity is invalid (R125). -/
theorem fmul32_of_zero_of_inf {a b : Word} (ha : isZero a = true) (hb : isInf b = true) : fmul32 a b = qnan := by
  have hna := not_nan_of_isFinite (isFinite_of_isZero ha)
  simp [fmul32, hna, not_nan_of_isInf hb, ha, hb]

theorem fmul32_of_inf_of_zero {a b : Word} (ha : isInf a = true) (hb : isZero b = true) : fmul32 a b = qnan := by
  have hnb := not_nan_of_isFinite (isFinite_of_isZero hb)
  simp [fmul32, hnb, not_nan_of_isInf ha, ha, hb]

/-- A finite operand that is no zero, times an infinity, is an infinity. -/
theorem fmul32_of_finite_of_inf {a b : Word} (ha : isFinite a = true) (hzero : isZero a = false) (hb : isInf b = true) :
    fmul32 a b = infOf (signBit a ^^ signBit b) := by
  obtain ⟨hna, hia⟩ := not_nan_not_inf_of_isFinite ha
  simp [fmul32, hna, hia, not_nan_of_isInf hb, hzero, hb]

theorem fmul32_of_isFinite {a b : Word} (ha : isFinite a = true) (hb : isFinite b = true) :
    fmul32 a b = round32 (scaled a * scaled b) (2 ^ 298) (signBit a ^^ signBit b) := by
  obtain ⟨hna, hia⟩ := not_nan_not_inf_of_isFinite ha
  obtain ⟨hnb, hib⟩ := not_nan_not_inf_of_isFinite hb
  rw [fmul32, if_neg (by simp [hna, hnb]), if_neg (by simp [hia, hib]), if_neg (by simp [hia, hib])]

/-- A finite coefficient times a zero is a zero (R127). -/
theorem fmul32_of_finite_of_zero {a b : Word} (ha : isFinite a = true) (hb : isZero b = true) :
    fmul32 a b = zeroOf (signBit a ^^ signBit b) := by
  rw [fmul32_of_isFinite ha (isFinite_of_isZero hb), (scaled_eq_zero_iff b).2 hb, mul_zero, round32_zero]

/-- A coefficient that is not finite, times a zero, is the canonical NaN (R125). -/
theorem fmul32_of_not_finite_of_zero {a b : Word} (ha : isFinite a = false) (hb : isZero b = true) :
    fmul32 a b = qnan := by
  obtain ⟨hfin, -⟩ | ⟨-, hinf, -⟩ | ⟨-, -, hnan⟩ := finite_or_inf_or_nan a
  · simp [ha] at hfin
  · exact fmul32_of_inf_of_zero hinf hb
  · exact fmul32_of_isNaN (.inl hnan)

/-- Multiplying by `1.0` keeps a finite pattern, the sign of a zero too (R127). -/
theorem fmul32_one {c : Word} (h : isFinite c = true) : fmul32 c f32One = c := by
  have hone : scaled f32One = 2 ^ 149 := by decide
  have hsign : (signBit c ^^ signBit f32One) = signBit c := Bool.xor_false _
  rw [fmul32_of_isFinite h (by decide), hone, hsign]
  cases hzero : isZero c with
  | true => rw [(scaled_eq_zero_iff c).2 hzero, zero_mul, round32_zero, ← eq_zeroOf hzero]
  | false =>
    have hscale : scaled c * 2 ^ 149 * 2 ^ 149 = scaled c * (2 ^ 298 : ℕ) := by
      rw [Nat.cast_pow, Nat.cast_ofNat, show 298 = 149 + 149 from rfl, pow_add, mul_assoc]
    exact round32_of_scaled h hzero (pow_pos two_pos 298) hscale _

/-! Sums (R128, R129). -/

theorem fadd32_of_isNaN {a b : Word} (h : isNaN a = true ∨ isNaN b = true) : fadd32 a b = qnan :=
  if_pos (by simpa using h)

theorem fadd32_of_isFinite {a b : Word} (ha : isFinite a = true) (hb : isFinite b = true) :
    fadd32 a b = round32 (scaled a + scaled b) (2 ^ 149) (signBit a && signBit b) := by
  obtain ⟨hna, hia⟩ := not_nan_not_inf_of_isFinite ha
  obtain ⟨hnb, hib⟩ := not_nan_not_inf_of_isFinite hb
  simp [fadd32, hna, hia, hnb, hib]

/-- Adding a finite pattern to `+0.0` keeps it, but for `-0.0` (R129). -/
theorem fadd32_posZero_left {c : Word} (h : isFinite c = true) :
    fadd32 0#32 c = if c = 0x80000000#32 then 0#32 else c := by
  have hzero : scaled 0#32 = 0 := by decide
  have hsign : signBit 0#32 = false := rfl
  rw [fadd32_of_isFinite (by decide) h, hzero, zero_add, hsign, Bool.false_and, round32_scaled h]
  cases hc : isZero c with
  | true =>
    rw [eq_zeroOf hc]
    cases signBit c <;> rfl
  | false =>
    have hne : c ≠ 0x80000000#32 := by
      rintro rfl
      exact absurd hc (by decide)
    simp [hne]

/-- Adding a zero keeps a finite pattern that is not `-0.0` (R129). -/
theorem fadd32_zeroOf_right {c : Word} (h : isFinite c = true) (hne : c ≠ 0x80000000#32) (s : Bool) :
    fadd32 c (zeroOf s) = c := by
  rw [fadd32_of_isFinite h (isFinite_of_isZero (isZero_zeroOf s)), (scaled_eq_zero_iff _).2 (isZero_zeroOf s), add_zero,
    round32_scaled h]
  cases hc : isZero c with
  | true =>
    rw [eq_zeroOf hc] at hne ⊢
    cases hs : signBit c with
    | true => exact absurd (by rw [hs]; rfl) hne
    | false => simp
  | false => rfl

/-- An infinity that is not the one of the other sign has the given sign. -/
theorem signBit_of_isInf_of_ne {x : Word} {sg : Bool} (h : isInf x = true) (hne : x ≠ infOf (!sg)) : signBit x = sg := by
  by_contra hs
  exact hne ((eq_infOf h).trans (congrArg infOf (Bool.eq_not.2 hs)))

/-- A sum is no NaN when no operand is, and no infinity of one of the signs is among them (R125). -/
theorem isNaN_fadd32_of_no_opposite {a b : Word} {sg : Bool} (hna : isNaN a = false) (hnb : isNaN b = false)
    (ha : a ≠ infOf (!sg)) (hb : b ≠ infOf (!sg)) : isNaN (fadd32 a b) = false := by
  rw [fadd32, if_neg (by simp [hna, hnb])]
  split
  case isTrue hinf =>
    obtain ⟨hia, hib⟩ := Bool.and_eq_true_iff.1 hinf
    simpa [signBit_of_isInf_of_ne hia ha, signBit_of_isInf_of_ne hib hb] using hna
  case isFalse =>
    split
    · exact hna
    · split
      · exact hnb
      · exact isNaN_round32 _ _ _

/-- An infinity stays when what is added is no NaN and not the infinity of the other sign (R128). -/
theorem fadd32_infOf_left {b : Word} {sg : Bool} (hnb : isNaN b = false) (hb : b ≠ infOf (!sg)) :
    fadd32 (infOf sg) b = infOf sg := by
  cases hib : isInf b with
  | true => simp [fadd32, not_nan_of_isInf, hib, signBit_of_isInf_of_ne hib hb]
  | false => simp [fadd32, not_nan_of_isInf, hnb, hib]

/-- An infinity added to what is no NaN and not the infinity of the other sign is the sum (R128). -/
theorem fadd32_infOf_right {a : Word} {sg : Bool} (hna : isNaN a = false) (ha : a ≠ infOf (!sg)) :
    fadd32 a (infOf sg) = infOf sg := by
  cases hia : isInf a with
  | true =>
    have hsign := signBit_of_isInf_of_ne hia ha
    simpa [fadd32, not_nan_of_isInf, hna, hia, hsign] using (eq_infOf hia).trans (congrArg infOf hsign)
  | false => simp [fadd32, not_nan_of_isInf, hna, hia]

end Sys2Proof.Machine
end

section
/-! PRODUCE on special operands, on a zero history and on an impulse (40_filter_core.md R86, R87, R90): what the accumulator
holds after one tap it keeps over the taps that follow. -/

namespace Sys2Proof.Machine

/-- An accumulator that no further tap changes. -/
theorem accumulate_eq_of_kept {c h : Nat → Word} {v : Word} {m n : Nat} (hmn : m ≤ n) (hstart : accumulate c h m = v)
    (hkeep : ∀ j, m ≤ j → j < n → fadd32 v (fmul32 (c j) (h j)) = v) : accumulate c h n = v := by
  induction n, hmn using Nat.le_induction with
  | base => exact hstart
  | succ n hmn ih =>
    rw [accumulate, ih fun j hm hj => hkeep j hm (Nat.lt_succ_of_lt hj)]
    exact hkeep n hmn (Nat.lt_succ_self n)

/-- One NaN product makes the sum the canonical NaN (R90, R125). -/
theorem accumulate_of_nan_product {c h : Nat → Word} {k n : Nat} (hk : k < n) (hnan : fmul32 (c k) (h k) = qnan) :
    accumulate c h n = qnan := by
  have hqnan : isNaN qnan = true := by decide
  refine accumulate_eq_of_kept (m := k + 1) hk ?_ fun j _ _ => fadd32_of_isNaN (.inl hqnan)
  rw [accumulate, hnan]
  exact fadd32_of_isNaN (.inr hqnan)

/-- Taps whose sample is `+0.0` leave a zero accumulator at `+0.0` (R86). -/
theorem accumulate_of_zero_samples {c h : Nat → Word} {n : Nat} (hc : ∀ k, k < n → isFinite (c k) = true)
    (hh : ∀ k, k < n → h k = 0#32) : accumulate c h n = 0#32 := by
  refine accumulate_eq_of_kept (m := 0) n.zero_le rfl fun j _ hj => ?_
  rw [hh j hj, fmul32_of_finite_of_zero (hc j hj) (by decide)]
  exact fadd32_zeroOf_right (by decide) (by decide) _

/-- A window that holds `1.0` at one place and `+0.0` elsewhere picks out one coefficient, a `-0.0` as `+0.0` (R87). -/
theorem accumulate_of_impulse {c h : Nat → Word} {k n : Nat} (hk : k < n) (hc : ∀ j, j < n → isFinite (c j) = true)
    (hone : h k = f32One) (hzero : ∀ j, j < n → j ≠ k → h j = 0#32) :
    accumulate c h n = if c k = 0x80000000#32 then 0#32 else c k := by
  refine accumulate_eq_of_kept (m := k + 1) hk ?_ fun j hj hjn => ?_
  · rw [accumulate, accumulate_of_zero_samples (fun j hj => hc j (by omega)) fun j hj => hzero j (by omega) (by omega), hone,
      fmul32_one (hc k hk)]
    exact fadd32_posZero_left (hc k hk)
  · rw [hzero j hjn (by omega), fmul32_of_finite_of_zero (hc j hjn) (by decide)]
    split
    case isTrue => exact fadd32_zeroOf_right (by decide) (by decide) _
    case isFalse hne => exact fadd32_zeroOf_right (hc k hk) hne _

/-- Without NaN products and infinities of one of the signs the accumulator is no NaN (R90, R125). -/
theorem isNaN_accumulate {c h : Nat → Word} {sg : Bool} {n : Nat}
    (hprod : ∀ j, j < n → isNaN (fmul32 (c j) (h j)) = false ∧ fmul32 (c j) (h j) ≠ infOf (!sg))
    (hacc : ∀ j, j < n → accumulate c h j ≠ infOf (!sg)) : isNaN (accumulate c h n) = false := by
  induction n with
  | zero => exact not_nan_of_isFinite (x := 0#32) (by decide)
  | succ n ih =>
    obtain ⟨hnan, hinf⟩ := hprod n n.lt_succ_self
    exact isNaN_fadd32_of_no_opposite
      (ih (fun j hj => hprod j (Nat.lt_succ_of_lt hj)) fun j hj => hacc j (Nat.lt_succ_of_lt hj)) hnan
      (hacc n n.lt_succ_self) hinf

/-- An infinite product decides the sum, unless a NaN or an infinity of the other sign enters it (R90). -/
theorem accumulate_of_infinite_product {c h : Nat → Word} {sg : Bool} {k n : Nat} (hk : k < n)
    (hinf : fmul32 (c k) (h k) = infOf sg)
    (hprod : ∀ j, j < n → isNaN (fmul32 (c j) (h j)) = false ∧ fmul32 (c j) (h j) ≠ infOf (!sg))
    (hacc : ∀ j, j < n → accumulate c h j ≠ infOf (!sg)) : accumulate c h n = infOf sg := by
  refine accumulate_eq_of_kept (m := k + 1) hk ?_ fun j _ hj => ?_
  · have hnan : isNaN (accumulate c h k) = false :=
      isNaN_accumulate (fun j hj => hprod j (hj.trans hk)) fun j hj => hacc j (hj.trans hk)
    rw [accumulate, hinf]
    exact fadd32_infOf_right hnan (hacc k hk)
  · obtain ⟨hnan, hne⟩ := hprod j hj
    exact fadd32_infOf_left hnan hne

/-- Settles O26: each clause names the product of tap `k`, and the accumulator keeps what that product makes of it. -/
theorem specialValuesInProduce : Obligations.SpecialValuesInProduce := by
  intro a s sg k hk
  refine ⟨fun hnan => ?_, fun hinf hzero => ?_, fun hinf hfin hzero hsg hprod hacc => ?_⟩
  · exact exec_produce_of_dotProduct (accumulate_of_nan_product hk (fmul32_of_isNaN (.inr hnan))) a
  · exact exec_produce_of_dotProduct (accumulate_of_nan_product hk (fmul32_of_zero_of_inf hzero hinf)) a
  · have hproduct : fmul32 (s.coefficient k) (s.window k) = infOf sg := by
      rw [fmul32_of_finite_of_inf hfin hzero hinf, hsg, Bool.xor_comm]
    exact exec_produce_of_dotProduct
      (accumulate_of_infinite_product hk hproduct hprod fun j hj => hacc j (Nat.le_of_lt hj)) a

/-- The window of a history that is zero in every slot (R86). -/
theorem window_of_zero_history {s : State} (h : ∀ i, i < 50 → s.history[i]! = 0#32) (k : Nat) : s.window k = 0#32 := by
  rw [window_eq_history]
  exact h _ (Nat.mod_lt _ (by decide))

/-- On a zero window the dot product is `+0.0`, for a finite table (R86). -/
theorem dotProduct_of_zero_window {s : State} (hfin : s.coeffFinite) (h : ∀ k, s.window k = 0#32) :
    s.dotProduct = 0#32 :=
  accumulate_of_zero_samples hfin fun k _ => h k

/-- On a zero window the dot product is the canonical NaN, for a table that is not finite (R86). -/
theorem dotProduct_of_zero_window_of_not_finite {s : State} (hfin : ¬ s.coeffFinite) (h : ∀ k, s.window k = 0#32) :
    s.dotProduct = qnan := by
  obtain ⟨k, hk, hnot⟩ : ∃ k, k < tapCount ∧ isFinite (s.coefficient k) = false := by
    simpa [State.coeffFinite] using hfin
  refine accumulate_of_nan_product hk (fmul32_of_not_finite_of_zero hnot ?_)
  rw [h k]
  decide

/-- Settles O24: INIT and reset clear the ring, and a zero window makes every product a zero or an invalid operation. -/
theorem produceOnZeroHistory : Obligations.ProduceOnZeroHistory := by
  intro a b s
  refine ⟨fun hfin hzero => ?_, fun hfin => ⟨executed (.produce a) (executed (.init b) s), rfl, ?_⟩, ?_, fun hfin hzero => ?_⟩
  · exact exec_produce_of_dotProduct (dotProduct_of_zero_window hfin (window_of_zero_history hzero)) a
  · have hdot : (executed (.init b) s).dotProduct = 0#32 :=
      dotProduct_of_zero_window (coeffFinite_congr (executed_coeff _ s) hfin) (window_of_cleared rfl)
    rw [executed_taken, List.getLast?_concat, answer_produce, hdot]
    rfl
  · exact exec_produce_of_dotProduct (dotProduct_of_zero_window coeffFinite_reset (window_of_cleared rfl)) a
  · exact exec_produce_of_dotProduct (dotProduct_of_zero_window_of_not_finite hfin (window_of_zero_history hzero)) a

end Sys2Proof.Machine
end

section
/-! The impulse response (40_filter_core.md R87): the responses of a run of FILTER sequences, as one-at-a-time commands, and
the window that an impulse leaves. -/

namespace Sys2Proof.Machine

/-- A run only adds to the transferred responses (R64, R65). -/
theorem taken_extends_of_runCommands {is : List Instr} {s t : State} (h : runCommands is s = some t) :
    s.taken <+: t.taken := by
  induction is generalizing s with
  | nil =>
    obtain rfl : s = t := Option.some.inj h
    exact ⟨[], List.append_nil _⟩
  | cons i is ih =>
    rw [runCommands_cons_executed] at h
    have hfirst : s.taken <+: (executed i s).taken := by
      rw [executed_taken]
      exact ⟨_, rfl⟩
    exact hfirst.trans (ih h)

/-- A stream of PUSH and PRODUCE pairs: the response of PRODUCE number `n` is the output for the log with the first `n + 1`
samples of the stream behind it (R84, R168). -/
theorem runCommands_filterPairs {log : List Word} {s : State} (hlog : historyHolds log s) (a : Word) (xs : List Word) :
    ∃ t, runCommands (xs.flatMap fun x => [.push x, .produce a]) s = some t ∧
      ∀ n, n < xs.length → t.taken[s.taken.length + 2 * n + 1]? =
        some (okResponse (filterOutput s.coefficient (log ++ xs.take (n + 1)))) := by
  induction xs generalizing log s with
  | nil => exact ⟨s, rfl, nofun⟩
  | cons x xs ih =>
    have hpushed := historyHolds_executed_push hlog x
    have hcoeff : (executed (.produce a) (executed (.push x) s)).coefficient = s.coefficient :=
      coefficient_congr (by simp)
    have hanswer : answer (.produce a) (executed (.push x) s) = okResponse (filterOutput s.coefficient (log ++ [x])) := by
      rw [answer_produce, dotProduct_of_historyHolds hpushed, coefficient_congr (executed_coeff _ s)]
    obtain ⟨t, hrun, houtput⟩ := ih (historyHolds_executed_produce hpushed a)
    refine ⟨t, hrun, fun n hn => ?_⟩
    cases n with
    | zero =>
      have hlast : (executed (.produce a) (executed (.push x) s)).taken[s.taken.length + 1]? =
          some (okResponse (filterOutput s.coefficient (log ++ [x]))) := by
        simp [hanswer]
      obtain ⟨rest, hrest⟩ := taken_extends_of_runCommands hrun
      obtain ⟨hlt, -⟩ := List.getElem?_eq_some_iff.1 hlast
      rw [← hrest, List.getElem?_append_left hlt]
      exact hlast
    | succ n =>
      have hindex : s.taken.length + 2 * (n + 1) + 1 =
          (executed (.produce a) (executed (.push x) s)).taken.length + 2 * n + 1 := by
        simp only [executed_taken, List.length_append, List.length_singleton]
        omega
      rw [hindex, houtput n (Nat.lt_of_succ_lt_succ hn), hcoeff]
      simp

/-- The impulse of R87: `1.0`, then 50 zeros. -/
def impulse : List Word := f32One :: List.replicate 50 0#32

theorem impulse_length : impulse.length = 51 := rfl

theorem impulse_getElem!_succ (i : Nat) : impulse[i + 1]! = 0#32 := by
  rw [List.getElem!_eq_getElem?_getD, impulse, List.getElem?_cons_succ, List.getElem?_replicate]
  split <;> rfl

/-- The sample `k` pushes before sample `n` of the impulse is `1.0` where `k` is `n`, and `+0.0` elsewhere (R87). -/
theorem impulse_reverse_take {n : Nat} (hn : n < 51) (k : Nat) :
    (impulse.take (n + 1)).reverse.getD k 0#32 = if k = n then f32One else 0#32 := by
  rw [reverse_take_getD (impulse_length ▸ hn)]
  obtain hlt | rfl | hgt := Nat.lt_trichotomy k n
  · rw [if_pos hlt.le, if_neg hlt.ne, ← Nat.sub_add_cancel (Nat.sub_pos_of_lt hlt)]
    exact impulse_getElem!_succ _
  · rw [if_pos le_rfl, if_pos rfl, Nat.sub_self]
    rfl
  · rw [if_neg hgt.not_ge, if_neg hgt.ne']

/-- Output `n` of an impulse is coefficient `n`, a `-0.0` as `+0.0` (R87). -/
theorem filterOutput_impulse {s : State} (hfin : s.coeffFinite) {n : Nat} (hn : n < 50) :
    filterOutput s.coefficient (impulse.take (n + 1)) = if s.coeff[n]! = 0x80000000#32 then 0#32 else s.coeff[n]! := by
  rw [getElem!_pos s.coeff n hn, ← coefficient_of_lt s hn]
  refine accumulate_of_impulse hn hfin ?_ fun j _ hj => ?_
  · rw [impulse_reverse_take (by omega), if_pos rfl]
  · rw [impulse_reverse_take (by omega), if_neg hj]

/-- After 50 zeros the `1.0` has left the window (R83, R87). -/
theorem filterOutput_impulse_last {s : State} (hfin : s.coeffFinite) :
    filterOutput s.coefficient (impulse.take 51) = 0#32 := by
  refine accumulate_of_zero_samples hfin fun k hk => ?_
  rw [impulse_reverse_take (n := 50) (by decide), if_neg (Nat.ne_of_lt hk)]

/-- Settles O25: after INIT each PRODUCE of the stream answers the output for the impulse so far. -/
theorem impulseResponseIsTheTable : Obligations.ImpulseResponseIsTheTable := by
  intro s hfin
  have hempty : historyHolds [] (executed (.init 0#32) s) := historyHolds_of_cleared rfl
  obtain ⟨t, hrun, houtput⟩ := runCommands_filterPairs hempty 0#32 impulse
  have hresponse : ∀ n, n < 51 → t.taken[s.taken.length + 2 * n + 2]? =
      some (okResponse (filterOutput s.coefficient (impulse.take (n + 1)))) := by
    intro n hn
    have hindex : s.taken.length + 2 * n + 2 = (executed (.init 0#32) s).taken.length + 2 * n + 1 := by
      simp only [executed_taken, List.length_append, List.length_singleton]
      omega
    rw [hindex, houtput n (impulse_length ▸ hn), coefficient_congr (executed_coeff _ s), List.nil_append]
  refine ⟨t, (runCommands_cons_executed _ _ s).trans hrun, fun j hj => ?_, ?_⟩
  · rw [hresponse j (by omega), filterOutput_impulse hfin hj]
    rfl
  · rw [hresponse 50 (by decide), filterOutput_impulse_last hfin]
    rfl

end Sys2Proof.Machine
end

section
/-! TOFLOAT gives the pattern whose value is the integer (41_conversion.md R101, R102, 42_float_numerics.md R121, R130). -/

namespace Sys2Proof.Machine

/-- The normal pattern of a nonzero integer below `2^24` in magnitude, its fields as rule R130 gives them. -/
def intPattern (n : ℤ) : Word :=
  packF32 (decide (n < 0)) (Nat.log2 n.natAbs + 127) (n.natAbs * 2 ^ (23 - Nat.log2 n.natAbs) - 2 ^ 23)

theorem log2_lt_of_lt_two_pow_24 {n : ℤ} (hne : n ≠ 0) (hlt : n.natAbs < 2 ^ 24) : Nat.log2 n.natAbs < 24 :=
  (Nat.log2_lt (Int.natAbs_ne_zero.2 hne)).2 hlt

theorem biasedExp_intPattern {n : ℤ} (hne : n ≠ 0) (hlt : n.natAbs < 2 ^ 24) :
    biasedExp (intPattern n) = Nat.log2 n.natAbs + 127 := by
  have hlog := log2_lt_of_lt_two_pow_24 hne hlt
  rw [intPattern, biasedExp_packF32]
  omega

/-- The significand of the pattern is the magnitude, shifted so that its leading bit stands at bit 23 (R130). -/
theorem significand_intPattern {n : ℤ} (hne : n ≠ 0) (hlt : n.natAbs < 2 ^ 24) :
    significand (intPattern n) = n.natAbs * 2 ^ (23 - Nat.log2 n.natAbs) := by
  have hlog := log2_lt_of_lt_two_pow_24 hne hlt
  have hscale : 2 ^ Nat.log2 n.natAbs * 2 ^ (23 - Nat.log2 n.natAbs) = 2 ^ 23 := by
    rw [← pow_add, Nat.add_sub_cancel' (by omega)]
  have hlow : 2 ^ 23 ≤ n.natAbs * 2 ^ (23 - Nat.log2 n.natAbs) :=
    hscale ▸ Nat.mul_le_mul_right _ (Nat.log2_self_le (Int.natAbs_ne_zero.2 hne))
  have hhigh : n.natAbs * 2 ^ (23 - Nat.log2 n.natAbs) < 2 ^ 24 :=
    calc n.natAbs * 2 ^ (23 - Nat.log2 n.natAbs)
        < 2 ^ (Nat.log2 n.natAbs + 1) * 2 ^ (23 - Nat.log2 n.natAbs) :=
          Nat.mul_lt_mul_of_pos_right Nat.lt_log2_self (by positivity)
      _ = 2 ^ Nat.log2 n.natAbs * 2 ^ (23 - Nat.log2 n.natAbs) * 2 := by ring
      _ = 2 ^ 24 := by rw [hscale]; rfl
  have hexp := biasedExp_intPattern hne hlt
  rw [significand_of_normal (by omega), intPattern, fraction_packF32]
  omega

/-- The pattern has the integer as its value (R121, R130). -/
theorem scaled_intPattern {n : ℤ} (hne : n ≠ 0) (hlt : n.natAbs < 2 ^ 24) : scaled (intPattern n) = n * 2 ^ 149 := by
  have hlog := log2_lt_of_lt_two_pow_24 hne hlt
  have hmag : scaledMag (intPattern n) = n.natAbs * 2 ^ 149 := by
    rw [scaledMag, significand_intPattern hne hlt, biasedExp_intPattern hne hlt, mul_assoc, ← pow_add]
    congr 2
    omega
  have hsign : signBit (intPattern n) = decide (n < 0) := signBit_packF32 _ _ _
  rw [scaled, hmag, hsign]
  by_cases hneg : n < 0
  · simp [hneg, abs_of_neg hneg]
  · simp [hneg, abs_of_nonneg (not_lt.1 hneg)]

theorem isFinite_intPattern {n : ℤ} (hne : n ≠ 0) (hlt : n.natAbs < 2 ^ 24) : isFinite (intPattern n) = true := by
  have hlog := log2_lt_of_lt_two_pow_24 hne hlt
  rw [isFinite_iff, biasedExp_intPattern hne hlt]
  omega

theorem classify_intPattern {n : ℤ} (hne : n ≠ 0) (hlt : n.natAbs < 2 ^ 24) : classify (intPattern n) = .normal := by
  have hlog := log2_lt_of_lt_two_pow_24 hne hlt
  have hexp := biasedExp_intPattern hne hlt
  rw [classify, if_neg (by omega), if_neg (by omega)]

theorem natAbs_toInt_lt (x : Half) : x.toInt.natAbs < 2 ^ 24 := by
  have hlow := x.le_toInt
  have hhigh := x.toInt_lt
  omega

/-- Converting a nonzero integer gives its pattern, as the value needs no rounding (R130). -/
theorem i16ToF32_of_ne_zero {x : Half} (h : x.toInt ≠ 0) : i16ToF32 x = intPattern x.toInt := by
  have hscaled := scaled_intPattern h (natAbs_toInt_lt x)
  have hzero : isZero (intPattern x.toInt) = false := by
    rw [← Bool.not_eq_true, ← scaled_eq_zero_iff, hscaled]
    simp [h]
  exact round32_of_scaled (isFinite_intPattern h (natAbs_toInt_lt x)) hzero one_pos (by simp [hscaled]) false

theorem i16ToF32_zero : i16ToF32 0#16 = 0#32 := by decide

theorem half_eq_zero {x : Half} (h : x.toInt = 0) : x = 0#16 := BitVec.eq_of_toInt_eq (by simpa using h)

/-- The value of a converted integer is the integer (R101). -/
theorem val_i16ToF32 (x : Half) : val (i16ToF32 x) = x.toInt := by
  by_cases h : x.toInt = 0
  · have hscaled : scaled 0#32 = 0 := by decide
    rw [half_eq_zero h, i16ToF32_zero, val, hscaled]
    simp
  · rw [i16ToF32_of_ne_zero h, val, scaled_intPattern h (natAbs_toInt_lt x)]
    rw [Int.cast_mul, Int.cast_pow, Int.cast_ofNat, mul_div_cancel_right₀ _ (by positivity)]

/-- A converted integer is `+0.0` or a normal pattern (R101). -/
theorem i16ToF32_eq_zero_or_normal (x : Half) : i16ToF32 x = 0#32 ∨ classify (i16ToF32 x) = .normal := by
  by_cases h : x.toInt = 0
  · exact .inl (by rw [half_eq_zero h, i16ToF32_zero])
  · exact .inr (by rw [i16ToF32_of_ne_zero h, classify_intPattern h (natAbs_toInt_lt x)])

theorem isFinite_of_classify_normal {x : Word} (h : classify x = .normal) : isFinite x = true := by
  rw [isFinite_iff]
  intro hexp
  rw [classify, if_neg (by omega), if_pos hexp] at h
  split at h <;> contradiction

theorem isFinite_i16ToF32 (x : Half) : isFinite (i16ToF32 x) = true := by
  obtain hzero | hnormal := i16ToF32_eq_zero_or_normal x
  · rw [hzero]
    decide
  · exact isFinite_of_classify_normal hnormal

theorem i16ToF32_ne_negZero (x : Half) : i16ToF32 x ≠ 0x80000000#32 := by
  obtain hzero | hnormal := i16ToF32_eq_zero_or_normal x
  · rw [hzero]
    decide
  · intro h
    rw [h] at hnormal
    exact absurd hnormal (by decide)

/-- Settles O27: the answer of TOFLOAT is the pattern whose value is the integer. -/
theorem toFloatIsExact : Obligations.ToFloatIsExact := by
  intro hi x s
  have hclass : classify (i16ToF32 x) ≠ .subnormal := by
    obtain hzero | hnormal := i16ToF32_eq_zero_or_normal x
    · rw [hzero]
      decide
    · simp [hnormal]
  exact ⟨i16ToF32 x, exec_eq _ s, val_i16ToF32 x, isFinite_i16ToF32 x, i16ToF32_ne_negZero x, hclass,
    fun h => h ▸ i16ToF32_zero⟩

theorem toInt_ofInt_of_mem_range {n : ℤ} (hlow : -32768 ≤ n) (hhigh : n ≤ 32767) : (BitVec.ofInt 16 n).toInt = n :=
  BitVec.toInt_ofInt_eq_self (by decide) (by simpa using hlow) (by simpa using Int.lt_add_one_of_le hhigh)

/-- The image of TOFLOAT: the finite patterns of the integers in range, with `+0.0` as the zero (R102). -/
theorem exists_i16ToF32_eq_iff (y : Word) :
    (∃ x : Half, i16ToF32 x = y) ↔
      (isFinite y = true ∧ y ≠ 0x80000000#32 ∧ ∃ n : ℤ, -32768 ≤ n ∧ n ≤ 32767 ∧ val y = (n : ℚ)) := by
  constructor
  · rintro ⟨x, rfl⟩
    have hlow := x.le_toInt
    have hhigh := x.toInt_lt
    exact ⟨isFinite_i16ToF32 x, i16ToF32_ne_negZero x, x.toInt, by simpa using hlow, by omega, val_i16ToF32 x⟩
  · rintro ⟨hfin, hne, n, hlow, hhigh, hval⟩
    have hscaled : scaled y = n * 2 ^ 149 := by
      have hrat := scaled_eq y
      rw [hval] at hrat
      exact_mod_cast hrat
    cases hzero : isZero y with
    | true =>
      refine ⟨0#16, i16ToF32_zero.trans ?_⟩
      rw [eq_zeroOf hzero] at hne ⊢
      cases hs : signBit y with
      | true => exact absurd (by rw [hs]; rfl) hne
      | false => rfl
    | false =>
      refine ⟨BitVec.ofInt 16 n, ?_⟩
      rw [i16ToF32, toInt_ofInt_of_mem_range hlow hhigh]
      exact round32_of_scaled hfin hzero one_pos (by simp [hscaled]) false

/-- Settles O29: a converted integer is read back from its value. -/
theorem toFloatInjectiveAndMonotone : Obligations.ToFloatInjectiveAndMonotone := by
  refine ⟨fun x y h => ?_, fun x y h => ?_, exists_i16ToF32_eq_iff⟩
  · have hval := congrArg val h
    rw [val_i16ToF32, val_i16ToF32] at hval
    exact BitVec.eq_of_toInt_eq (by exact_mod_cast hval)
  · rw [val_i16ToF32, val_i16ToF32]
    exact_mod_cast h

end Sys2Proof.Machine
end

section
/-! TOINT clamps, then truncates the value of its operand (41_conversion.md R103 to R105, 42_float_numerics.md R123, R131). -/

namespace Sys2Proof.Machine

/-- The comparison of finite patterns is that of their values (R123). -/
theorem fgt_iff_of_isFinite {x c : Word} (hx : isFinite x = true) (hc : isFinite c = true) :
    fgt x c = true ↔ val c < val x := by
  obtain ⟨hnx, hix⟩ := not_nan_not_inf_of_isFinite hx
  obtain ⟨hnc, hic⟩ := not_nan_not_inf_of_isFinite hc
  simp [fgt, hnx, hix, hnc, hic, val_lt_val_iff]

theorem val_f32Max16 : val f32Max16 = 32767 := by
  have hscaled : scaled f32Max16 = 32767 * 2 ^ 149 := by decide
  rw [val, hscaled]
  norm_num

theorem val_f32Min16 : val f32Min16 = -32768 := by
  have hscaled : scaled f32Min16 = -32768 * 2 ^ 149 := by decide
  rw [val, hscaled]
  norm_num

/-- Dividing the scaled value toward zero truncates the value (R10, R131). -/
theorem truncVal_eq (x : Word) : truncVal x = truncRat (val x) := by
  have hval : val x = (scaled x : ℚ) / (2 ^ 149 : ℕ) := by rw [val, Nat.cast_pow, Nat.cast_ofNat]
  rw [truncVal, truncRat, hval]
  by_cases h : 0 ≤ scaled x
  · rw [if_pos (by positivity), Rat.floor_intCast_div_natCast]
    exact Int.tdiv_eq_ediv_of_nonneg h
  · have hneg : (scaled x : ℚ) / (2 ^ 149 : ℕ) < 0 :=
      div_neg_of_neg_of_pos (by exact_mod_cast not_le.1 h) (by positivity)
    rw [if_neg (not_le.2 hneg), Rat.ceil_intCast_div_natCast,
      ← neg_neg ((scaled x).tdiv _), ← Int.neg_tdiv, Int.tdiv_eq_ediv_of_nonneg (by omega)]
    rfl

/-- What TOINT makes of a finite value: the two clamps, else truncation (R103). -/
def clampTrunc (q : ℚ) : ℤ := if q > 32767 then 32767 else if q < -32768 then -32768 else truncRat q

theorem truncRat_intCast (n : ℤ) : truncRat n = n := by simp [truncRat]

/-- Between the clamps there is nothing to clamp after truncation. -/
theorem truncRat_mem_range {q : ℚ} (hlow : -32768 ≤ q) (hhigh : q ≤ 32767) :
    -32768 ≤ truncRat q ∧ truncRat q ≤ 32767 := by
  rw [truncRat]
  split
  case isTrue hq =>
    have hfloor : (⌊q⌋ : ℚ) ≤ 32767 := (Int.floor_le q).trans hhigh
    exact ⟨(by decide : (-32768 : ℤ) ≤ 0).trans (Int.floor_nonneg.2 hq), by exact_mod_cast hfloor⟩
  case isFalse hq =>
    have hceil : (-32768 : ℚ) ≤ ⌈q⌉ := hlow.trans (Int.le_ceil q)
    have hnonpos : ⌈q⌉ ≤ 0 := Int.ceil_le.2 (by simpa using (not_le.1 hq).le)
    exact ⟨by exact_mod_cast hceil, hnonpos.trans (by decide)⟩

theorem clampTrunc_of_gt {q : ℚ} (h : 32767 < q) : clampTrunc q = 32767 := if_pos h

theorem clampTrunc_of_lt {q : ℚ} (h : q < -32768) : clampTrunc q = -32768 := by
  rw [clampTrunc, if_neg (by linarith), if_pos h]

theorem clampTrunc_of_mem_range {q : ℚ} (hlow : -32768 ≤ q) (hhigh : q ≤ 32767) : clampTrunc q = truncRat q := by
  rw [clampTrunc, if_neg (not_lt.2 hhigh), if_neg (not_lt.2 hlow)]

theorem clampTrunc_mem_range (q : ℚ) : -32768 ≤ clampTrunc q ∧ clampTrunc q ≤ 32767 := by
  by_cases hhigh : q ≤ 32767
  · by_cases hlow : -32768 ≤ q
    · rw [clampTrunc_of_mem_range hlow hhigh]
      exact truncRat_mem_range hlow hhigh
    · rw [clampTrunc_of_lt (not_le.1 hlow)]
      decide
  · rw [clampTrunc_of_gt (not_le.1 hhigh)]
    decide

/-- TOINT on a finite operand (R103). -/
theorem f32ToI16Sat_of_isFinite {x : Word} (h : isFinite x = true) (n : Half) :
    f32ToI16Sat n x = BitVec.ofInt 16 (clampTrunc (val x)) := by
  have hgt : fgt x f32Max16 = true ↔ val x > 32767 := by
    rw [fgt_iff_of_isFinite h (by decide), val_f32Max16, gt_iff_lt]
  have hlt : flt x f32Min16 = true ↔ val x < -32768 := by
    rw [flt, fgt_iff_of_isFinite (by decide) h, val_f32Min16]
  rw [f32ToI16Sat, if_neg (by simp [not_nan_of_isFinite h]), truncVal_eq]
  simp only [hgt, hlt, clampTrunc, apply_ite (BitVec.ofInt 16)]
  rfl

theorem toInt_f32ToI16Sat_of_isFinite {x : Word} (h : isFinite x = true) (n : Half) :
    (f32ToI16Sat n x).toInt = clampTrunc (val x) := by
  obtain ⟨hlow, hhigh⟩ := clampTrunc_mem_range (val x)
  rw [f32ToI16Sat_of_isFinite h, toInt_ofInt_of_mem_range hlow hhigh]

/-- A NaN gives the parameter (R104). -/
theorem f32ToI16Sat_of_isNaN {x : Word} (h : isNaN x = true) (n : Half) : f32ToI16Sat n x = n := if_pos h

/-- The infinities are beyond the clamps (R105). -/
theorem f32ToI16Sat_posInf (n : Half) : f32ToI16Sat n 0x7F800000#32 = 0x7FFF#16 := rfl

theorem f32ToI16Sat_negInf (n : Half) : f32ToI16Sat n 0xFF800000#32 = 0x8000#16 := rfl

/-- TOINT answers with the converted operand and changes nothing but the response (R103). -/
theorem exec_toInt_of_eq {x : Word} {s : State} {r : Half} (h : f32ToI16Sat s.toIntNan x = r) :
    exec (.toInt x) s = .next { s with response := some ⟨false, r.signExtend 32⟩ } :=
  h ▸ exec_eq (.toInt x) s

/-- TOINT on a NaN answers with the parameter (R104). -/
theorem exec_toInt_of_isNaN {x : Word} (h : isNaN x = true) (s : State) :
    exec (.toInt x) s = .next { s with response := some ⟨false, s.toIntNan.signExtend 32⟩ } :=
  exec_toInt_of_eq (f32ToI16Sat_of_isNaN h s.toIntNan)

/-- Settles O31: either NaN is answered with the parameter. -/
theorem toIntOfNaN : Obligations.ToIntOfNaN := fun _ _ s hx hy =>
  ⟨exec_toInt_of_isNaN hx s, (exec_toInt_of_isNaN hy s).trans (exec_toInt_of_isNaN hx s).symm⟩

/-- Settles O30: the integer is the converted operand, read as a signed number. -/
theorem toIntClampsThenTruncates : Obligations.ToIntClampsThenTruncates := by
  intro x s
  have hlow := (f32ToI16Sat s.toIntNan x).le_toInt
  have hhigh := (f32ToI16Sat s.toIntNan x).toInt_lt
  refine ⟨(f32ToI16Sat s.toIntNan x).toInt, exec_toInt_of_eq BitVec.ofInt_toInt.symm, fun hnan => ?_, ?_, ?_,
    fun hfin => toInt_f32ToI16Sat_of_isFinite hfin _, by simpa using hlow, by omega⟩
  · rw [f32ToI16Sat_of_isNaN hnan]
  · rintro rfl
    rw [f32ToI16Sat_posInf]
    decide
  · rintro rfl
    rw [f32ToI16Sat_negInf]
    decide

/-- A fraction is cut off whole. -/
theorem truncRat_of_abs_lt_one {q : ℚ} (hlow : -1 < q) (hhigh : q < 1) : truncRat q = 0 := by
  rw [truncRat]
  split
  case isTrue hq => exact Int.floor_eq_zero_iff.2 ⟨hq, hhigh⟩
  case isFalse hq => exact Int.ceil_eq_zero_iff.2 ⟨hlow, (not_le.1 hq).le⟩

/-- What TOINT executes on a finite operand whose clamped and truncated value is known. -/
theorem exec_toInt_of_clampTrunc {x : Word} {n : ℤ} (hfin : isFinite x = true) (h : clampTrunc (val x) = n) (s : State) :
    exec (.toInt x) s = .next { s with response := some ⟨false, (BitVec.ofInt 16 n).signExtend 32⟩ } :=
  exec_toInt_of_eq (h ▸ f32ToI16Sat_of_isFinite hfin s.toIntNan)

/-- The values next to the clamps are beyond them (R105). -/
theorem max16_lt_val_succ : 32767 < val 0x46FFFE01#32 := by
  rw [← val_f32Max16, val_lt_val_iff]
  decide

theorem val_pred_lt_min16 : val 0xC7000001#32 < -32768 := by
  rw [← val_f32Min16, val_lt_val_iff]
  decide

/-- Settles O32: each range of the table by the value of its operand, each example by evaluation. -/
theorem toIntCornerCases : Obligations.ToIntCornerCases := by
  intro x s
  have hfraction (hlow : -1 < val x) (hhigh : val x < 1) : clampTrunc (val x) = 0 := by
    rw [clampTrunc_of_mem_range (by linarith) (by linarith), truncRat_of_abs_lt_one hlow hhigh]
  exact ⟨exec_toInt_of_eq (f32ToI16Sat_posInf _), exec_toInt_of_eq (f32ToI16Sat_negInf _),
    fun hfin hval => exec_toInt_of_clampTrunc hfin (clampTrunc_of_gt hval) s,
    rfl, rfl,
    fun hfin hlow hhigh => exec_toInt_of_clampTrunc hfin (hfraction hlow hhigh) s,
    rfl, rfl, rfl,
    fun hfin hval => exec_toInt_of_clampTrunc hfin (clampTrunc_of_lt hval) s,
    by decide, max16_lt_val_succ, by decide, val_pred_lt_min16⟩

end Sys2Proof.Machine
end

section
/-! The two conversions one after the other (41_conversion.md R106). -/

namespace Sys2Proof.Machine

/-- TOINT undoes TOFLOAT, as an integer in range is neither clamped nor cut (R106). -/
theorem f32ToI16Sat_i16ToF32 (n x : Half) : f32ToI16Sat n (i16ToF32 x) = x := by
  have hlow : (-32768 : ℚ) ≤ x.toInt := by exact_mod_cast x.le_toInt
  have hhigh : (x.toInt : ℚ) ≤ 32767 := by exact_mod_cast Int.le_of_lt_add_one x.toInt_lt
  rw [f32ToI16Sat_of_isFinite (isFinite_i16ToF32 x), val_i16ToF32, clampTrunc_of_mem_range hlow hhigh, truncRat_intCast,
    BitVec.ofInt_toInt]

/-- TOFLOAT undoes TOINT on the image of TOFLOAT and nowhere else (R106). -/
theorem i16ToF32_f32ToI16Sat_iff (n : Half) (y : Word) :
    i16ToF32 (f32ToI16Sat n y) = y ↔ ∃ x : Half, i16ToF32 x = y := by
  constructor
  · exact fun h => ⟨_, h⟩
  · rintro ⟨x, rfl⟩
    rw [f32ToI16Sat_i16ToF32]

/-- Settles O34: TOFLOAT undoes TOINT on its own image, which is known. -/
theorem conversionRoundTrip : Obligations.ConversionRoundTrip :=
  ⟨fun hi x s => ⟨_, _, exec_eq (.toFloat hi x) s, rfl, exec_toInt_of_eq (f32ToI16Sat_i16ToF32 _ x)⟩,
    fun n y => (i16ToF32_f32ToI16Sat_iff n y).trans (exists_i16ToF32_eq_iff y)⟩

end Sys2Proof.Machine
end

section
/-! Conversions between the Filter Core's commands (41_conversion.md R107, 20_memory.md R47): two runs that agree on the
filter go on to agree when one of them leaves out a command that is no Filter Core command. -/

namespace Sys2Proof.Machine

/-- Two states with the same filter: history, cursor and coefficient table (R21, R25). -/
def SameFilter (s t : State) : Prop :=
  s.history = t.history ∧ s.writeCursor = t.writeCursor ∧ s.coeff = t.coeff

/-- A Filter Core command answers alike on the same filter (R26). -/
theorem answer_of_sameFilter {i : Instr} (hi : isCoreCommand i = true) {s t : State} (h : SameFilter s t) :
    answer i s = answer i t := by
  obtain ⟨hhist, hcursor, hcoeff⟩ := h
  cases i with
  | init _ | push _ => rfl
  | produce _ =>
    have hdot : s.dotProduct = t.dotProduct :=
      accumulate_congr (fun k _ => by rw [coefficient_congr hcoeff]) fun k _ => window_congr hhist hcursor k
    rw [answer_produce, answer_produce, hdot]
  | toFloat _ _ | toInt _ | illegalZero _ | illegalHigh _ _ => contradiction

theorem sameFilter_executed {s t : State} (h : SameFilter s t) (i : Instr) : SameFilter (executed i s) (executed i t) := by
  obtain ⟨hhist, hcursor, hcoeff⟩ := h
  refine ⟨?_, ?_, by rw [executed_coeff, executed_coeff, hcoeff]⟩
  · cases i <;> simp [executed, filterEffect, hhist, hcursor]
  · cases i <;> simp [executed, filterEffect, hcursor]

theorem writesFilter_of_not_isCoreCommand {i : Instr} (h : isCoreCommand i = false) : writesFilter i = false := by
  cases i with
  | init _ | push _ => contradiction
  | produce _ | toFloat _ _ | toInt _ | illegalZero _ | illegalHigh _ _ => rfl

/-- What is no Filter Core command keeps the filter (R26). -/
theorem sameFilter_executed_left {s t : State} (h : SameFilter s t) {i : Instr} (hi : isCoreCommand i = false) :
    SameFilter (executed i s) t := by
  rw [executed, filterEffect_of_not_writesFilter (writesFilter_of_not_isCoreCommand hi)]
  exact h

/-- The responses of the Filter Core's commands in a run. -/
def coreResponses (cs : List Instr) (rs : List Response) : List Response :=
  ((cs.zip rs).filter fun p => isCoreCommand p.1).map Prod.snd

/-- A run beside the run of its Filter Core commands alone, from states with the same filter (R107). -/
theorem runCommands_filter_isCoreCommand (cs : List Instr) {s t : State} (h : SameFilter s t) :
    ∃ s' t' rs, runCommands cs s = some s' ∧ runCommands (cs.filter isCoreCommand) t = some t' ∧ SameFilter s' t' ∧
      s'.taken = s.taken ++ rs ∧ t'.taken = t.taken ++ coreResponses cs rs := by
  induction cs generalizing s t with
  | nil => exact ⟨s, t, [], rfl, rfl, h, by simp, by simp [coreResponses]⟩
  | cons i cs ih =>
    cases hi : isCoreCommand i with
    | true =>
      obtain ⟨s', t', rs, hs, ht, hsame, hstaken, httaken⟩ := ih (sameFilter_executed h i)
      refine ⟨s', t', answer i s :: rs, (runCommands_cons_executed i cs s).trans hs, ?_, hsame, by simp [hstaken], ?_⟩
      · rw [List.filter_cons_of_pos hi, runCommands_cons_executed, ht]
      · simp [httaken, coreResponses, hi, answer_of_sameFilter hi h]
    | false =>
      obtain ⟨s', t', rs, hs, ht, hsame, hstaken, httaken⟩ := ih (sameFilter_executed_left h hi)
      refine ⟨s', t', answer i s :: rs, (runCommands_cons_executed i cs s).trans hs, ?_, hsame, by simp [hstaken], ?_⟩
      · rw [List.filter_cons_of_neg (by simp [hi]), ht]
      · simp [httaken, coreResponses, hi]

/-- Settles O35: the two runs start in one state, and a conversion's answer names its operand and the parameter only. -/
theorem conversionsTouchNothing : Obligations.ConversionsTouchNothing := by
  refine ⟨fun cs s => ?_, fun hi n x s t hnan => ?_⟩
  · obtain ⟨t, u, rs, ht, hu, ⟨hhist, hcursor, -⟩, httaken, hutaken⟩ :=
      runCommands_filter_isCoreCommand cs (s := s) ⟨rfl, rfl, rfl⟩
    refine ⟨t, u, ht, hu, hhist, hcursor, ?_⟩
    rw [httaken, hutaken, List.drop_left, List.drop_left]
    rfl
  · have hanswer : answer (.toInt x) t = answer (.toInt x) s := by rw [answer, answer, hnan]
    exact ⟨_, _, _, _, _, _, exec_eq _ s, exec_eq _ t, rfl, rfl, exec_eq _ s, exec_eq _ t, rfl, congrArg some hanswer⟩

end Sys2Proof.Machine
end

section
/-! The exact values of patterns in the rules' own words: values, extremes, distinctness, comparison, truncation
(42_float_numerics.md R121, R123, R131). -/

namespace Sys2Proof.Machine

/-- The sign of a pattern as a factor (R121). -/
theorem scaled_eq_sign_mul (x : Word) : scaled x = (-1) ^ (signBit x).toNat * scaledMag x := by
  rw [scaled]
  cases signBit x <;> simp

/-- A rational with the value of a pattern, in units of the least subnormal. -/
theorem scaled_mul_of_val {x : Word} {num : ℤ} {den : Nat} (hden : 0 < den) (h : (num : ℚ) / den = val x) :
    num * 2 ^ 149 = scaled x * den := by
  have hne : (den : ℚ) ≠ 0 := by exact_mod_cast hden.ne'
  have hrat : (num : ℚ) * 2 ^ 149 = scaled x * den := by
    rw [scaled_eq, ← h]
    field_simp
  exact_mod_cast hrat

/-- An exact nonzero value of the format rounds to its own pattern (R121, R124). -/
theorem round32_of_val {x : Word} (hfin : isFinite x = true) (hzero : isZero x = false) {num : ℤ} {den : Nat}
    (hden : 0 < den) (h : (num : ℚ) / den = val x) (z : Bool) : round32 num den z = x :=
  round32_of_scaled hfin hzero hden (scaled_mul_of_val hden h) z

/-- Settles O40: the value in units of the least subnormal needs no rounding. -/
theorem roundKeepsRepresentable : Obligations.RoundKeepsRepresentable :=
  fun _ _ _ z hfin hzero hden h => round32_of_val hfin hzero hden h z

theorem isZero_iff_val_eq_zero (x : Word) : isZero x = true ↔ val x = 0 := by
  rw [← scaled_eq_zero_iff, val]
  simp

/-- Distinct finite patterns have distinct values but for the zeros (R121): each is what its value rounds to. -/
theorem eq_of_val_eq {x y : Word} (hx : isFinite x = true) (hy : isFinite y = true) (hzero : isZero x = false)
    (h : val x = val y) : x = y := by
  have hzero' : isZero y = false := by
    rw [← Bool.not_eq_true, isZero_iff_val_eq_zero] at hzero ⊢
    rwa [← h]
  have hden : 0 < 2 ^ 149 := by positivity
  have hval : (scaled x : ℚ) / (2 ^ 149 : ℕ) = val x := by rw [val, Nat.cast_pow, Nat.cast_ofNat]
  rw [← round32_of_val hx hzero hden hval false, round32_of_val hy hzero' hden (hval.trans h)]

/-- The value of a normal pattern (R121). -/
theorem val_of_normal {x : Word} (h : biasedExp x ≠ 0) :
    val x = (-1 : ℚ) ^ (signBit x).toNat * (2 ^ 23 + (fraction x : ℚ)) * (2 : ℚ) ^ ((biasedExp x : ℤ) - 150) := by
  have hexp : (biasedExp x : ℤ) - 150 = ((biasedExp x - 1 : ℕ) : ℤ) - (149 : ℕ) := by omega
  rw [val, scaled_eq_sign_mul, scaledMag, significand_of_normal h, hexp, zpow_sub₀ two_ne_zero, zpow_natCast,
    zpow_natCast]
  push_cast
  ring

/-- The value of a zero or subnormal pattern (R121). -/
theorem val_of_exp_zero {x : Word} (h : biasedExp x = 0) :
    val x = (-1 : ℚ) ^ (signBit x).toNat * (fraction x : ℚ) * (2 : ℚ) ^ (-149 : ℤ) := by
  rw [val, scaled_eq_sign_mul, scaledMag, significand_of_exp_zero h, h, zpow_neg]
  push_cast
  ring

theorem significand_lt (x : Word) : significand x < 2 ^ 24 := by
  have hf := fraction_lt x
  rw [significand]
  split <;> omega

/-- The largest finite magnitude, in units of the least subnormal (R121). -/
theorem scaledMag_le_max {x : Word} (h : isFinite x = true) : scaledMag x ≤ (2 ^ 24 - 1) * 2 ^ 253 := by
  have hsig := significand_lt x
  have hexp := biasedExp_lt x
  have hne := (isFinite_iff x).1 h
  exact Nat.mul_le_mul (by omega) (Nat.pow_le_pow_right (by decide) (by omega))

theorem scaled_le_scaledMag (x : Word) : scaled x ≤ scaledMag x := by
  rw [← natAbs_scaled]
  exact Int.le_natAbs

/-- The leading bit of a normal pattern bounds its magnitude from below (R121). -/
theorem two_pow_le_scaledMag {x : Word} (h : biasedExp x ≠ 0) : 2 ^ (biasedExp x + 22) ≤ scaledMag x :=
  calc 2 ^ (biasedExp x + 22) = 2 ^ 23 * 2 ^ (biasedExp x - 1) := by
        rw [← pow_add]
        congr 1
        omega
    _ ≤ significand x * 2 ^ (biasedExp x - 1) := by
        rw [significand_of_normal h]
        exact Nat.mul_le_mul_right _ (Nat.le_add_right _ _)

/-- The significand bounds a magnitude from above; a subnormal has the scale of exponent 1 (R121). -/
theorem scaledMag_lt_two_pow {x : Word} {e : Nat} (h : biasedExp x ≤ e) (he : 1 ≤ e) : scaledMag x < 2 ^ (e + 23) :=
  calc significand x * 2 ^ (biasedExp x - 1)
      < 2 ^ 24 * 2 ^ (biasedExp x - 1) := Nat.mul_lt_mul_of_pos_right (significand_lt x) (by positivity)
    _ = 2 ^ (24 + (biasedExp x - 1)) := (pow_add ..).symm
    _ ≤ 2 ^ (e + 23) := Nat.pow_le_pow_right two_pos (by omega)

theorem val_maxFinite : val 0x7F7FFFFF#32 = (2 ^ 24 - 1) * 2 ^ 104 := by
  have hscaled : scaled 0x7F7FFFFF#32 = (2 ^ 24 - 1) * 2 ^ 253 := by decide
  rw [val, hscaled]
  norm_num

theorem val_minSubnormal : val 0x00000001#32 = (2 : ℚ) ^ (-149 : ℤ) := by
  have hscaled : scaled 0x00000001#32 = 1 := by decide
  rw [val, hscaled]
  norm_num

theorem val_minNormal : val 0x00800000#32 = (2 : ℚ) ^ (-126 : ℤ) := by
  have hscaled : scaled 0x00800000#32 = 2 ^ 23 := by decide
  rw [val, hscaled]
  norm_num

theorem val_of_isZero {x : Word} (h : isZero x = true) : val x = 0 := (isZero_iff_val_eq_zero x).1 h

theorem val_le_maxFinite {x : Word} (h : isFinite x = true) : val x ≤ (2 ^ 24 - 1) * 2 ^ 104 := by
  have hle : scaled x ≤ ((2 ^ 24 - 1) * 2 ^ 253 : ℕ) :=
    (scaled_le_scaledMag x).trans (by exact_mod_cast scaledMag_le_max h)
  have hmax : scaled 0x7F7FFFFF#32 = ((2 ^ 24 - 1) * 2 ^ 253 : ℕ) := by decide
  rwa [← val_maxFinite, val_le_val_iff, hmax]

/-- A positive value is that of its magnitude. -/
theorem scaled_of_val_pos {x : Word} (h : 0 < val x) : scaled x = scaledMag x ∧ 0 < scaledMag x := by
  have hpos : 0 < scaled x := by
    have hzero : scaled 0#32 = 0 := by decide
    rwa [← val_of_isZero (x := 0#32) (by decide), val_lt_val_iff, hzero] at h
  rw [← natAbs_scaled]
  omega

theorem minSubnormal_le_val {x : Word} (h : 0 < val x) : (2 : ℚ) ^ (-149 : ℤ) ≤ val x := by
  obtain ⟨hscaled, hpos⟩ := scaled_of_val_pos h
  have hmin : scaled 0x00000001#32 = 1 := by decide
  rw [← val_minSubnormal, val_le_val_iff, hmin, hscaled]
  exact_mod_cast hpos

theorem biasedExp_ne_zero_of_classify_normal {x : Word} (h : classify x = .normal) : biasedExp x ≠ 0 := by
  intro hexp
  rw [classify, if_pos hexp] at h
  split at h <;> contradiction

theorem minNormal_le_val {x : Word} (h : 0 < val x) (hnormal : classify x = .normal) : (2 : ℚ) ^ (-126 : ℤ) ≤ val x := by
  obtain ⟨hscaled, -⟩ := scaled_of_val_pos h
  have hmin : scaled 0x00800000#32 = (2 ^ 23 : ℕ) := by decide
  have hexp := biasedExp_ne_zero_of_classify_normal hnormal
  have hmag : 2 ^ 23 ≤ scaledMag x := (Nat.pow_le_pow_right two_pos (by omega)).trans (two_pow_le_scaledMag hexp)
  rw [← val_minNormal, val_le_val_iff, hmin, hscaled]
  exact_mod_cast hmag

/-- Settles O36: two patterns with one value are both zeros, or are what that value rounds to. -/
theorem valueOfFinitePattern : Obligations.ValueOfFinitePattern := by
  refine ⟨fun x hlow _ => val_of_normal (Nat.pos_iff_ne_zero.1 hlow), fun x => val_of_exp_zero,
    val_of_isZero (by decide), val_of_isZero (by decide), val_maxFinite, val_minSubnormal, val_minNormal,
    fun x hfin => ⟨val_le_maxFinite hfin, minSubnormal_le_val, minNormal_le_val⟩, fun x y hx hy hval => ?_⟩
  cases hzero : isZero x with
  | false => exact .inl (eq_of_val_eq hx hy hzero hval)
  | true => exact .inr ⟨rfl, (isZero_iff_val_eq_zero y).2 (hval ▸ val_of_isZero hzero)⟩

/-! The comparisons of TOINT (R123). -/

theorem fgt_of_isNaN {x c : Word} (h : isNaN x = true ∨ isNaN c = true) : fgt x c = false := if_pos (by simpa using h)

/-- Settles O37: an infinity is compared by evaluation, a finite operand by its value. -/
theorem comparisonsFollowValues : Obligations.ComparisonsFollowValues := by
  intro x c hc
  have hfin : isFinite c = true := by obtain rfl | rfl := hc <;> decide
  refine ⟨fun hnan => ⟨fgt_of_isNaN (.inl hnan), fgt_of_isNaN (.inr hnan)⟩, ?_, ?_,
    fun hx => ⟨fgt_iff_of_isFinite hx hfin, fgt_iff_of_isFinite hfin hx⟩, by decide, by decide⟩
  · rintro rfl
    obtain rfl | rfl := hc <;> decide
  · rintro rfl
    obtain rfl | rfl := hc <;> decide

/-! Truncation (R131). -/

/-- Truncation drops the bits of the magnitude below the unit and keeps the sign. -/
theorem truncVal_eq_sign_mul (x : Word) :
    truncVal x = (if signBit x then -1 else 1) * ((scaledMag x / 2 ^ 149 : ℕ) : ℤ) := by
  rw [truncVal, scaled]
  cases signBit x with
  | true =>
    rw [if_pos rfl, if_pos rfl, Int.neg_tdiv, neg_one_mul]
    rfl
  | false =>
    rw [if_neg Bool.false_ne_true, if_neg Bool.false_ne_true, one_mul]
    rfl

/-- The integer part of a magnitude at least one is a right shift of the significand. -/
theorem scaledMag_div_unit {x : Word} (hlow : 127 ≤ biasedExp x) (hhigh : biasedExp x ≤ 150) :
    scaledMag x / 2 ^ 149 = (2 ^ 23 + fraction x) >>> (23 - (biasedExp x - 127)) := by
  have hunit : 2 ^ 149 = 2 ^ (23 - (biasedExp x - 127)) * 2 ^ (biasedExp x - 1) := by
    rw [← pow_add]
    congr 1
    omega
  rw [scaledMag, significand_of_normal (by omega), hunit, Nat.mul_div_mul_right _ _ (by positivity),
    Nat.shiftRight_eq_div_pow]

/-- A magnitude in the range of 16-bit integers has an exponent below 16. -/
theorem biasedExp_le_of_mem_range {x : Word} (hlow : -32768 ≤ val x) (hhigh : val x ≤ 32767) : biasedExp x ≤ 142 := by
  have hmax : scaled f32Max16 ≤ 2 ^ 164 := by decide
  have hmin : -2 ^ 164 ≤ scaled f32Min16 := by decide
  rw [← val_f32Min16, val_le_val_iff] at hlow
  rw [← val_f32Max16, val_le_val_iff] at hhigh
  by_contra hexp
  have hmag : 2 ^ 165 ≤ scaledMag x :=
    (Nat.pow_le_pow_right two_pos (by omega)).trans (two_pow_le_scaledMag (by omega))
  rw [← natAbs_scaled] at hmag
  omega

/-- Settles O33: the magnitude is cut at the unit, below which an exponent under 127 leaves all of it. -/
theorem truncationIsAShift : Obligations.TruncationIsAShift := by
  intro x _ hlow hhigh
  obtain ⟨hle, hge⟩ := truncRat_mem_range hlow hhigh
  have hexp := biasedExp_le_of_mem_range hlow hhigh
  rw [← truncVal_eq] at hle hge
  refine ⟨truncVal_eq x, hle, hge, fun hlt => ?_, fun hone => ⟨by omega, ?_⟩⟩
  · rw [truncVal_eq_sign_mul, Nat.div_eq_of_lt (scaledMag_lt_two_pow (Nat.le_of_lt_succ hlt) (by decide)),
      Nat.cast_zero, mul_zero]
  · rw [truncVal_eq_sign_mul, scaledMag_div_unit hone (by omega)]

end Sys2Proof.Machine
end

section
/-! The pattern of a converted integer, and the NaN results of the arithmetic (42_float_numerics.md R125, R130). -/

namespace Sys2Proof.Machine

theorem log2_natAbs_toInt_le {x : Half} (h : x.toInt ≠ 0) : Nat.log2 x.toInt.natAbs ≤ 15 := by
  have hlow := x.le_toInt
  have hhigh := x.toInt_lt
  exact Nat.le_of_lt_succ ((Nat.log2_lt (Int.natAbs_ne_zero.2 h)).2 (by omega))

/-- A finite pattern with the value of a converted integer other than zero is the converted integer (R130). -/
theorem eq_i16ToF32_of_val {x : Half} (h : x.toInt ≠ 0) {y : Word} (hy : isFinite y = true)
    (hval : val y = x.toInt) : y = i16ToF32 x := by
  have hzero : isZero y = false := by
    rw [← Bool.not_eq_true, isZero_iff_val_eq_zero, hval]
    exact_mod_cast h
  exact eq_of_val_eq hy (isFinite_i16ToF32 x) hzero (hval.trans (val_i16ToF32 x).symm)

/-- Settles O28: a nonzero integer converts to the pattern of its fields, whose value no other pattern has. -/
theorem toFloatPattern : Obligations.ToFloatPattern := by
  intro hi x s
  refine ⟨exec_eq _ s, val_i16ToF32 x, fun h => h ▸ i16ToF32_zero, fun hne => ?_⟩
  have hint : x.toInt ≠ 0 := fun h => hne (half_eq_zero h)
  exact ⟨log2_natAbs_toInt_le hint, i16ToF32_of_ne_zero hint, fun _ => eq_i16ToF32_of_val hint⟩

/-- The sum of two infinities is the first of equal signs, and invalid with opposite signs (R125, R128). -/
theorem fadd32_of_isInf {a b : Word} (ha : isInf a = true) (hb : isInf b = true) :
    fadd32 a b = if signBit a = signBit b then a else qnan := by
  simp [fadd32, not_nan_of_isInf ha, not_nan_of_isInf hb, ha, hb]

/-- A product is the canonical NaN or no NaN (R125). -/
theorem fmul32_eq_qnan_or_not_nan (a b : Word) : fmul32 a b = qnan ∨ isNaN (fmul32 a b) = false := by
  rw [fmul32]
  split
  · exact .inl rfl
  · split
    · exact .inl rfl
    · split
      · exact .inr (not_nan_of_isInf (isInf_infOf _))
      · exact .inr (isNaN_round32 _ _ _)

/-- A sum is the canonical NaN or no NaN (R125). -/
theorem fadd32_eq_qnan_or_not_nan (a b : Word) : fadd32 a b = qnan ∨ isNaN (fadd32 a b) = false := by
  cases hnan : isNaN a || isNaN b with
  | true => exact .inl (fadd32_of_isNaN (Bool.or_eq_true_iff.1 hnan))
  | false =>
    obtain ⟨hna, hnb⟩ := Bool.or_eq_false_iff.1 hnan
    rw [fadd32, if_neg (by simp [hnan])]
    split
    · split
      · exact .inr hna
      · exact .inl rfl
    · split
      · exact .inr hna
      · split
        · exact .inr hnb
        · exact .inr (isNaN_round32 _ _ _)

/-- An accumulator is the canonical NaN or no NaN (R125). -/
theorem accumulate_eq_qnan_or_not_nan (c h : Nat → Word) (n : Nat) :
    accumulate c h n = qnan ∨ isNaN (accumulate c h n) = false := by
  cases n with
  | zero => exact .inr (show isNaN 0#32 = false by decide)
  | succ k => exact fadd32_eq_qnan_or_not_nan _ _

/-- Settles O41: every result of the arithmetic is the canonical NaN or no NaN, and PRODUCE answers with a sum. -/
theorem naNResultsAreCanonical : Obligations.NaNResultsAreCanonical := by
  have hcanonical {d : Word} (h : d = qnan ∨ isNaN d = false) (hnan : isNaN d = true) : d = 0x7FC00000#32 :=
    h.resolve_right (by simp [hnan])
  refine ⟨fun a b h => ⟨fmul32_of_isNaN h, fadd32_of_isNaN h⟩,
    fun a b ha hb => ⟨fmul32_of_zero_of_inf ha hb, fmul32_of_inf_of_zero hb ha⟩,
    fun a b ha hb hs => (fadd32_of_isInf ha hb).trans (if_neg hs),
    fun a b => ⟨hcanonical (fmul32_eq_qnan_or_not_nan a b), hcanonical (fadd32_eq_qnan_or_not_nan a b)⟩,
    fun a s => ⟨_, s.dotProduct, exec_eq (.produce a) s, rfl, hcanonical (accumulate_eq_qnan_or_not_nan _ _ _)⟩⟩

end Sys2Proof.Machine
end

section
/-! Rounding in units of the least subnormal: the magnitude of the result, the pattern that holds it, and the thresholds of
overflow and underflow (42_float_numerics.md R124). -/

namespace Sys2Proof.Machine

/-! The quotient rounded to the nearest integer. -/

theorem divNearestEven_le {a b c : Nat} (hb : 0 < b) (h : a ≤ c * b) : divNearestEven a b ≤ c := by
  obtain ⟨-, hnear⟩ := divNearestEven_near a hb
  by_contra hlt
  have hprod := Nat.mul_le_mul_right b (Nat.succ_le_of_lt (not_le.1 hlt))
  rw [Nat.succ_mul] at hprod
  omega

theorem le_divNearestEven {a b c : Nat} (hb : 0 < b) (h : c * b ≤ a) : c ≤ divNearestEven a b := by
  obtain ⟨hnear, -⟩ := divNearestEven_near a hb
  by_contra hlt
  have hprod := Nat.mul_le_mul_right b (Nat.succ_le_of_lt (not_le.1 hlt))
  rw [Nat.succ_mul] at hprod
  rw [add_mul, mul_assoc] at hnear
  omega

/-- A rounded quotient one half away from the exact one, on either side, is even. -/
theorem divNearestEven_even_of_half {a b : Nat}
    (h : 2 * a = (2 * divNearestEven a b + 1) * b ∨ 2 * (divNearestEven a b * b) = 2 * a + b) :
    divNearestEven a b % 2 = 0 := by
  refine divNearestEven_tie ?_
  have hdiv : a = a / b * b + a % b := by rw [mul_comm, Nat.div_add_mod]
  have hdown : (2 * (a / b) + 1) * b = 2 * (a / b * b) + b := by ring
  have hup : (2 * (a / b + 1) + 1) * b = 2 * (a / b * b) + 3 * b := by ring
  have hup' : (a / b + 1) * b = a / b * b + b := by ring
  have hmod : 0 < b → a % b < b := Nat.mod_lt a
  rw [divNearestEven] at h
  split at h <;> omega

/-- A quotient below the middle of an odd integer and the next is rounded to it or below. -/
theorem divNearestEven_le_iff_of_odd {a b c : Nat} (hb : 0 < b) (hc : c % 2 = 1) :
    divNearestEven a b ≤ c ↔ 2 * a < (2 * c + 1) * b := by
  obtain ⟨hlow, hhigh⟩ := divNearestEven_near a hb
  constructor
  · intro h
    have hle : 2 * a ≤ (2 * c + 1) * b := hlow.trans (Nat.mul_le_mul_right b (by omega))
    refine hle.lt_of_ne fun heq => ?_
    have hM : divNearestEven a b = c := by
      rw [heq] at hlow
      have hodd := Nat.le_of_mul_le_mul_right hlow hb
      omega
    have heven := divNearestEven_even_of_half (.inl (hM ▸ heq))
    omega
  · intro h
    have hlt : 2 * divNearestEven a b * b < (2 * c + 2) * b := by linarith
    have hnext := Nat.lt_of_mul_lt_mul_right hlt
    omega

/-- The rounded quotient is zero up to one half. -/
theorem divNearestEven_eq_zero_iff {a b : Nat} (hb : 0 < b) : divNearestEven a b = 0 ↔ 2 * a ≤ b := by
  constructor
  · intro h
    obtain ⟨hnear, -⟩ := divNearestEven_near a hb
    simpa [h] using hnear
  · intro h
    rw [divNearestEven, Nat.mod_eq_of_lt (by omega), Nat.div_eq_of_lt (by omega), if_neg (by omega)]

/-- Rounding a quotient depends on the rational only. -/
theorem divNearestEven_mul_mul (a b : Nat) {c : Nat} (hc : 0 < c) :
    divNearestEven (a * c) (b * c) = divNearestEven a b := by
  have hpos : b * c < 2 * (a % b * c) ↔ b < 2 * (a % b) := by
    rw [← mul_assoc, Nat.mul_lt_mul_right hc]
  have htie : 2 * (a % b * c) = b * c ↔ 2 * (a % b) = b := by
    rw [← mul_assoc, Nat.mul_left_inj hc.ne']
  simp only [divNearestEven, Nat.mul_mod_mul_right, Nat.mul_div_mul_right _ _ hc, hpos, htie]

/-- No integer is nearer to a quotient than the rounded one, and another as near makes it a tie. -/
theorem divNearestEven_nearest (a : Nat) {b : Nat} (hb : 0 < b) (j : ℤ) :
    |(divNearestEven a b * b - a : ℤ)| ≤ |j * b - a| ∧
      (j ≠ divNearestEven a b → |(divNearestEven a b * b - a : ℤ)| = |j * b - a| → divNearestEven a b % 2 = 0) := by
  obtain ⟨hlow, hhigh⟩ := divNearestEven_near a hb
  have hhalf : 2 * |(divNearestEven a b * b - a : ℤ)| ≤ b := by
    have hlow' : (2 * a : ℤ) ≤ (2 * divNearestEven a b + 1) * b := by exact_mod_cast hlow
    have hhigh' : (2 * (divNearestEven a b * b) : ℤ) ≤ 2 * a + b := by exact_mod_cast hhigh
    rw [← abs_two, ← abs_mul, abs_le]
    constructor <;> linarith
  by_cases hj : j = divNearestEven a b
  · exact ⟨by rw [hj], fun hne => absurd hj hne⟩
  · have hstep : (b : ℤ) ≤ |j * b - a| + |(divNearestEven a b * b - a : ℤ)| :=
      calc (b : ℤ) ≤ |j - divNearestEven a b| * b :=
            le_mul_of_one_le_left (by positivity) (Int.one_le_abs (sub_ne_zero.2 hj))
        _ = |(j * b - a) - (divNearestEven a b * b - a)| := by
            rw [sub_sub_sub_cancel_right, ← sub_mul, abs_mul, Nat.abs_cast]
        _ ≤ |j * b - a| + |(divNearestEven a b * b - a : ℤ)| := abs_sub _ _
    refine ⟨by linarith, fun _ heq => divNearestEven_even_of_half ?_⟩
    have hdist : 2 * |(divNearestEven a b * b - a : ℤ)| = b := by linarith
    obtain hside | hside := abs_choice (divNearestEven a b * b - a : ℤ)
    · exact .inr (by zify; linarith)
    · exact .inl (by zify; linarith)

/-! The exponent and the significand of a result. -/

/-- The magnitude of a result that does not overflow, in units of the least subnormal (R124). -/
def roundedMag (n d : Nat) : Nat := roundSig n d * 2 ^ roundExp n d

theorem magnitude_lt (n : Nat) {d : Nat} (hd : 0 < d) : n * 2 ^ 149 < 2 ^ 24 * (d * 2 ^ roundExp n d) :=
  calc n * 2 ^ 149 = n * 2 ^ 126 * 2 ^ 23 := by ring
    _ < d * 2 ^ (roundExp n d + 1) * 2 ^ 23 := Nat.mul_lt_mul_of_pos_right (lt_roundExp_succ n hd) (by decide)
    _ = 2 ^ 24 * (d * 2 ^ roundExp n d) := by ring

theorem le_magnitude {n d : Nat} (hk : roundExp n d ≠ 0) : 2 ^ 23 * (d * 2 ^ roundExp n d) ≤ n * 2 ^ 149 := by
  have h := roundExp_le hk
  omega

theorem roundSig_le (n : Nat) {d : Nat} (hd : 0 < d) : roundSig n d ≤ 2 ^ 24 :=
  divNearestEven_le (by positivity) (magnitude_lt n hd).le

/-- A significand has its leading bit, unless the exponent is the least. -/
theorem le_roundSig {n d : Nat} (hd : 0 < d) (hk : roundExp n d ≠ 0) : 2 ^ 23 ≤ roundSig n d :=
  le_divNearestEven (by positivity) (le_magnitude hk)

theorem add_lt_of_two_pow_mul_lt {a k c m : Nat} (hm : 2 ^ a ≤ m) (h : m * 2 ^ k < 2 ^ c) : a + k < c := by
  rw [← Nat.pow_lt_pow_iff_right (a := 2) (by decide), pow_add]
  exact (Nat.mul_le_mul_right _ hm).trans_lt h

theorem lt_add_of_le_mul_two_pow {a k c m : Nat} (hm : m < 2 ^ a) (h : 2 ^ c ≤ m * 2 ^ k) : c < a + k := by
  rw [← Nat.pow_lt_pow_iff_right (a := 2) (by decide), pow_add]
  exact h.trans_lt (Nat.mul_lt_mul_of_pos_right hm (by positivity))

/-- What a pattern must hold to be a rounded significand and exponent: the magnitude, and a fraction of the same parity. -/
def HoldsRounded (x : Word) (k m : Nat) : Prop :=
  isFinite x = true ∧ scaledMag x = m * 2 ^ k ∧ fraction x % 2 = m % 2

/-- The last lines of rule R124 hold the significand and the exponent. -/
theorem holdsRounded_encodeRounded (s : Bool) {k m : Nat} (hk : k ≤ 253) (hm : m < 2 ^ 24)
    (hnorm : k ≠ 0 → 2 ^ 23 ≤ m) : HoldsRounded (encodeRounded s k m) k m := by
  rw [encodeRounded, if_neg (by omega)]
  split
  case isTrue hsub =>
    obtain rfl : k = 0 := by omega
    refine ⟨isFinite_packF32 s (by decide) m, ?_, ?_⟩
    · rw [scaledMag, significand_of_exp_zero (biasedExp_packF32 ..), fraction_packF32, biasedExp_packF32,
        Nat.mod_eq_of_lt hsub]
    · rw [fraction_packF32, Nat.mod_eq_of_lt hsub]
  case isFalse hnormal =>
    have hexp : biasedExp (packF32 s (k + 1) (m - 2 ^ 23)) = k + 1 := by
      rw [biasedExp_packF32, Nat.mod_eq_of_lt (by omega)]
    have hfrac : fraction (packF32 s (k + 1) (m - 2 ^ 23)) = m - 2 ^ 23 := by
      rw [fraction_packF32, Nat.mod_eq_of_lt (by omega)]
    refine ⟨isFinite_packF32 s (by omega) _, ?_, by omega⟩
    rw [scaledMag, significand_of_normal (by omega), hexp, hfrac, Nat.add_sub_cancel' (not_lt.1 hnormal),
      Nat.add_sub_cancel]

/-- A rounded magnitude below `2^128` is held by the result. -/
theorem holdsRounded_renormalise (s : Bool) {k m : Nat} (hm : m ≤ 2 ^ 24) (hnorm : k ≠ 0 → 2 ^ 23 ≤ m)
    (hfit : m * 2 ^ k < 2 ^ 277) : HoldsRounded (renormalise s k m) k m := by
  rw [renormalise]
  split
  case isTrue htop =>
    have hk := add_lt_of_two_pow_mul_lt htop.ge hfit
    obtain ⟨hfin, hmag, hpar⟩ := holdsRounded_encodeRounded s (k := k + 1) (m := 2 ^ 23) (by omega) (by decide)
      fun _ => le_rfl
    refine ⟨hfin, ?_, by omega⟩
    rw [hmag, htop, pow_succ' 2 k, ← mul_assoc]
    rfl
  case isFalse htop =>
    have hk : k ≤ 253 := by
      by_contra hlt
      have hbits := add_lt_of_two_pow_mul_lt (hnorm (by omega)) hfit
      omega
    exact holdsRounded_encodeRounded s hk (hm.lt_of_ne htop) hnorm

/-- A rounded magnitude from `2^128` on is an infinity. -/
theorem renormalise_overflow (s : Bool) {k m : Nat} (hm : m ≤ 2 ^ 24) (hbig : 2 ^ 277 ≤ m * 2 ^ k) :
    renormalise s k m = infOf s := by
  rw [renormalise]
  split
  case isTrue htop =>
    have hk := lt_add_of_le_mul_two_pow (a := 25) (by omega) hbig
    exact if_pos (by omega)
  case isFalse htop =>
    have hk := lt_add_of_le_mul_two_pow (hm.lt_of_ne htop) hbig
    exact if_pos (by omega)

/-! The result of rounding a rational. -/

/-- The result for a magnitude that rounds below `2^128`. -/
theorem holdsRounded_round32 {num : ℤ} {den : Nat} (hnum : num ≠ 0) (hden : 0 < den) (z : Bool)
    (hfit : roundedMag num.natAbs den < 2 ^ 277) :
    HoldsRounded (round32 num den z) (roundExp num.natAbs den) (roundSig num.natAbs den) := by
  rw [round32_of_ne_zero hnum]
  exact holdsRounded_renormalise _ (roundSig_le _ hden) (le_roundSig hden) hfit

theorem round32_overflow {num : ℤ} {den : Nat} (hnum : num ≠ 0) (hden : 0 < den) (z : Bool)
    (hbig : 2 ^ 277 ≤ roundedMag num.natAbs den) : round32 num den z = infOf (decide (num < 0)) := by
  rw [round32_of_ne_zero hnum]
  exact renormalise_overflow _ (roundSig_le _ hden) hbig

/-- The sign of the result is that of the rational (R124). -/
theorem signBit_round32 {num : ℤ} (hnum : num ≠ 0) (den : Nat) (z : Bool) :
    signBit (round32 num den z) = decide (num < 0) := by
  rw [round32_of_ne_zero hnum, renormalise]
  split <;> exact signBit_encodeRounded _ _ _

/-- A magnitude rounds below `2^128` where it is below `2^128 - 2^103` (R124). -/
theorem roundedMag_lt_iff (n : Nat) {d : Nat} (hd : 0 < d) :
    roundedMag n d < 2 ^ 277 ↔ n < (2 ^ 128 - 2 ^ 103) * d := by
  have hupper := magnitude_lt n hd
  have hsig := roundSig_le n hd
  have hscale (k : Nat) : d * 2 ^ k = 2 ^ k * d := mul_comm ..
  obtain hk | hk | hk := lt_trichotomy (roundExp n d) 253
  · have hpow : 2 ^ roundExp n d ≤ 2 ^ 252 := Nat.pow_le_pow_right two_pos (by omega)
    have hfit : roundedMag n d < 2 ^ 277 := by
      rw [show 277 = 25 + 252 from rfl, pow_add]
      exact Nat.mul_lt_mul_of_lt_of_le (by omega) hpow (by positivity)
    have hbelow := Nat.mul_le_mul_left d hpow
    exact iff_of_true hfit (by omega)
  · have htop : roundedMag n d < 2 ^ 277 ↔ roundSig n d ≤ 2 ^ 24 - 1 := by
      rw [roundedMag, hk]
      omega
    rw [htop, roundSig, divNearestEven_le_iff_of_odd (by positivity) (by decide), hk]
    omega
  · have hpow : 2 ^ 254 ≤ 2 ^ roundExp n d := Nat.pow_le_pow_right two_pos hk
    have hbig : 2 ^ 277 ≤ roundedMag n d := by
      rw [show 277 = 23 + 254 from rfl, pow_add]
      exact Nat.mul_le_mul (le_roundSig hd (by omega)) hpow
    have habove := Nat.mul_le_mul_left d hpow
    have hlower := le_magnitude (n := n) (d := d) (by omega)
    exact iff_of_false (not_lt.2 hbig) (by omega)

/-- Scaling numerator and denominator changes no result. -/
theorem round32_mul_mul (num : ℤ) (den : Nat) (z : Bool) {c : Nat} (hc : 0 < c) :
    round32 (num * c) (den * c) z = round32 num den z := by
  have hexp (n : Nat) : roundExp (n * c) (den * c) = roundExp n den := by
    rw [roundExp, mul_right_comm, Nat.mul_div_mul_right _ _ hc, roundExp]
  have hsig (n : Nat) : roundSig (n * c) (den * c) = roundSig n den := by
    rw [roundSig, hexp, mul_right_comm n, mul_right_comm den, divNearestEven_mul_mul _ _ hc, roundSig]
  have hzero : num * c = 0 ↔ num = 0 := by simp [hc.ne']
  have hneg : num * c < 0 ↔ num < 0 := by simp [mul_neg_iff, hc, not_lt.2 (Int.natCast_nonneg c)]
  simp only [round32, Int.natAbs_mul, Int.natAbs_natCast, hexp, hsig, hzero, hneg]

/-- Equal rationals round alike (R124). -/
theorem round32_congr {num num' : ℤ} {den den' : Nat} (hden : 0 < den) (hden' : 0 < den')
    (h : (num : ℚ) / den = (num' : ℚ) / den') (z : Bool) : round32 num den z = round32 num' den' z := by
  have hcross : num * den' = num' * den := by
    rw [div_eq_div_iff (by exact_mod_cast hden.ne') (by exact_mod_cast hden'.ne')] at h
    exact_mod_cast h
  rw [← round32_mul_mul num den z hden', hcross, mul_comm den, round32_mul_mul num' den' z hden]

theorem abs_div_natCast (num : ℤ) (den : Nat) : |(num : ℚ) / den| = (num.natAbs : ℚ) / den := by
  rw [abs_div, Nat.abs_cast, Nat.cast_natAbs, Int.cast_abs]

/-- The overflow threshold, without the division. -/
theorem abs_lt_overflow_iff (num : ℤ) {den : Nat} (hden : 0 < den) :
    |(num : ℚ) / den| < 2 ^ 128 - 2 ^ 103 ↔ num.natAbs < (2 ^ 128 - 2 ^ 103) * den := by
  have hconst : (2 : ℚ) ^ 128 - 2 ^ 103 = (2 ^ 128 - 2 ^ 103 : ℕ) := by norm_num
  rw [abs_div_natCast, div_lt_iff₀ (by exact_mod_cast hden), hconst]
  exact_mod_cast Iff.rfl

/-- At and above the overflow threshold the result is an infinity (R124). -/
theorem round32_of_overflow {num : ℤ} {den : Nat} (hden : 0 < den) (h : 2 ^ 128 - 2 ^ 103 ≤ |(num : ℚ) / den|)
    (z : Bool) : round32 num den z = infOf (decide (num < 0)) := by
  rw [← not_lt, abs_lt_overflow_iff num hden, ← roundedMag_lt_iff _ hden, not_lt] at h
  refine round32_overflow ?_ hden z h
  rintro rfl
  rw [← not_lt, roundedMag_lt_iff _ hden] at h
  exact h (Nat.mul_pos (by decide) hden)

/-- Below the overflow threshold the result of a nonzero rational holds what rounding gives (R124). -/
theorem holdsRounded_of_lt {num : ℤ} {den : Nat} (hnum : num ≠ 0) (hden : 0 < den)
    (h : |(num : ℚ) / den| < 2 ^ 128 - 2 ^ 103) (z : Bool) :
    HoldsRounded (round32 num den z) (roundExp num.natAbs den) (roundSig num.natAbs den) :=
  holdsRounded_round32 hnum hden z ((roundedMag_lt_iff _ hden).2 ((abs_lt_overflow_iff num hden).1 h))

/-- Settles O39: the threshold of overflow is where the rounded magnitude reaches `2^128`. -/
theorem roundSignZeroAndOverflow : Obligations.RoundSignZeroAndOverflow := by
  refine ⟨fun den z => ?_, fun num den z _ hnum => signBit_round32 hnum den z, fun num den z hden h => ?_,
    fun num num' den den' z hden hden' h => round32_congr hden hden' h z⟩
  · rw [round32_zero]
    cases z <;> rfl
  · rw [round32_of_overflow hden h]
    by_cases hneg : num < 0
    · rw [if_pos hneg, decide_eq_true hneg]
      rfl
    · rw [if_neg hneg, decide_eq_false hneg]
      rfl

end Sys2Proof.Machine
end

section
/-! Rounding gives the nearest value of the format, with an even fraction on a tie, and keeps what fits
(42_float_numerics.md R124). -/

namespace Sys2Proof.Machine

/-- What every value of the format is, for the spacing `2^k`: a multiple of it, or below the magnitudes that have it. -/
def OnGrid (v : ℤ) (k : Nat) : Prop := (2 ^ k : ℤ) ∣ v ∨ (k ≠ 0 ∧ v.natAbs < 2 ^ 23 * 2 ^ k)

theorem onGrid_scaled (x : Word) (k : Nat) : OnGrid (scaled x) k := by
  by_cases hk : k ≤ biasedExp x - 1
  · have hdvd : 2 ^ k ∣ scaledMag x := (pow_dvd_pow 2 hk).mul_left _
    rw [← natAbs_scaled] at hdvd
    exact .inl (by exact_mod_cast Int.natCast_dvd.2 hdvd)
  · refine .inr ⟨by omega, ?_⟩
    rw [natAbs_scaled, mul_comm, ← pow_add]
    exact scaledMag_lt_two_pow (by omega) (by omega)

theorem onGrid_sign_mul {n v : ℤ} {k : Nat} (hn : n ≠ 0) (h : OnGrid v k) : OnGrid (n.sign * v) k := by
  rw [OnGrid, Int.natAbs_mul, Int.natAbs_sign_of_ne_zero hn, one_mul]
  exact h.imp_left fun hdvd => hdvd.mul_left _

/-- No value of the format is nearer to a magnitude than the rounded one, and another as near makes it a tie. -/
theorem roundedMag_nearest (n : Nat) {d : Nat} (hd : 0 < d) {v : ℤ} (hv : OnGrid v (roundExp n d)) :
    |(roundedMag n d * d - n * 2 ^ 149 : ℤ)| ≤ |v * d - n * 2 ^ 149| ∧
      (v ≠ roundedMag n d → |(roundedMag n d * d - n * 2 ^ 149 : ℤ)| = |v * d - n * 2 ^ 149| →
        roundSig n d % 2 = 0) := by
  have hb : 0 < d * 2 ^ roundExp n d := by positivity
  have hmag : (roundedMag n d : ℤ) = roundSig n d * 2 ^ roundExp n d := by
    rw [roundedMag, Nat.cast_mul, Nat.cast_pow, Nat.cast_ofNat]
  have hunit (j : ℤ) : j * (d * 2 ^ roundExp n d : ℕ) - (n * 2 ^ 149 : ℕ) = j * 2 ^ roundExp n d * d - n * 2 ^ 149 := by
    push_cast
    ring
  have hnear (j : ℤ) : |(roundedMag n d * d - n * 2 ^ 149 : ℤ)| ≤ |j * 2 ^ roundExp n d * d - n * 2 ^ 149| ∧
      (j ≠ roundSig n d → |(roundedMag n d * d - n * 2 ^ 149 : ℤ)| = |j * 2 ^ roundExp n d * d - n * 2 ^ 149| →
        roundSig n d % 2 = 0) := by
    rw [hmag, ← hunit, ← hunit]
    exact divNearestEven_nearest (n * 2 ^ 149) hb j
  obtain ⟨j, rfl⟩ | ⟨hk, hsmall⟩ := hv
  · obtain ⟨hle, htie⟩ := hnear j
    rw [mul_comm (2 ^ roundExp n d : ℤ)]
    refine ⟨hle, fun hne => htie ?_⟩
    rintro rfl
    exact hne hmag.symm
  · obtain ⟨hle, -⟩ := hnear (2 ^ 23)
    have hlow : (2 ^ 23 * 2 ^ roundExp n d * d : ℤ) ≤ n * 2 ^ 149 := by
      have hnorm := le_magnitude hk
      zify at hnorm
      linarith
    have hbelow : v * d < 2 ^ 23 * 2 ^ roundExp n d * d :=
      mul_lt_mul_of_pos_right (by zify at hsmall; exact (le_abs_self v).trans_lt hsmall) (by exact_mod_cast hd)
    have hstrict : |(roundedMag n d * d - n * 2 ^ 149 : ℤ)| < |v * d - n * 2 ^ 149| := by
      refine hle.trans_lt ?_
      rw [abs_of_nonpos (by linarith), abs_of_neg (by linarith)]
      linarith
    exact ⟨hstrict.le, fun _ heq => absurd heq hstrict.ne⟩

/-- A pattern that holds a rounded magnitude has it with the sign of the rational. -/
theorem sign_mul_scaled_round32 {num : ℤ} (hnum : num ≠ 0) {den : Nat} {z : Bool}
    (h : HoldsRounded (round32 num den z) (roundExp num.natAbs den) (roundSig num.natAbs den)) :
    num.sign * scaled (round32 num den z) = roundedMag num.natAbs den := by
  obtain ⟨-, hmag, -⟩ := h
  rw [scaled, signBit_round32 hnum, hmag, roundedMag]
  by_cases hneg : num < 0
  · simp [hneg, Int.sign_eq_neg_one_of_neg hneg]
  · simp [hneg, Int.sign_eq_one_of_pos (by omega : 0 < num)]

/-- The distance of a value from a rational, over the common denominator and turned to the sign of the rational. -/
theorem abs_val_sub {num : ℤ} (hnum : num ≠ 0) {den : Nat} (hden : 0 < den) (x : Word) :
    |val x - (num : ℚ) / den| =
      (|num.sign * scaled x * den - num.natAbs * 2 ^ 149| : ℤ) / (2 ^ 149 * den) := by
  have hturn : num.sign * scaled x * den - num.natAbs * 2 ^ 149 = num.sign * (scaled x * den - num * 2 ^ 149) := by
    rw [← Int.sign_mul_self_eq_natAbs]
    ring
  have hcommon : val x - (num : ℚ) / den = ((scaled x * den - num * 2 ^ 149 : ℤ) : ℚ) / (2 ^ 149 * den) := by
    have hne : (den : ℚ) ≠ 0 := by exact_mod_cast hden.ne'
    rw [val]
    push_cast
    field_simp
    ring
  rw [hturn, abs_mul, Int.abs_sign_of_ne_zero hnum, one_mul, hcommon, abs_div, ← Int.cast_abs,
    abs_of_pos (by positivity : (0 : ℚ) < 2 ^ 149 * den)]

/-- Settles O38: the rounded significand is nearest among the multiples of the spacing, and every other value of the
format is farther away than the least of them with a leading bit. -/
theorem roundToNearestEven : Obligations.RoundToNearestEven := by
  intro num den z hden hlt
  by_cases hnum : num = 0
  · have hzero : isZero (round32 num den z) = true := by rw [hnum, round32_zero, isZero_zeroOf]
    obtain ⟨-, hfrac⟩ := (isZero_iff _).1 hzero
    refine ⟨isFinite_of_isZero hzero, fun x _ => ⟨?_, fun _ _ => by rw [hfrac]⟩⟩
    rw [val_of_isZero hzero, hnum]
    simp
  · have hholds := holdsRounded_of_lt hnum hden hlt z
    have hscaled := sign_mul_scaled_round32 hnum hholds
    obtain ⟨hfin, -, hpar⟩ := hholds
    refine ⟨hfin, fun x _ => ?_⟩
    obtain ⟨hle, htie⟩ := roundedMag_nearest num.natAbs hden (onGrid_sign_mul hnum (onGrid_scaled x _))
    rw [abs_val_sub hnum hden, abs_val_sub hnum hden, hscaled]
    refine ⟨by gcongr, fun hne heq => hpar.trans (htie (fun hsame => hne ?_) ?_)⟩
    · have hcancel := mul_left_cancel₀ (Int.sign_eq_zero_iff_zero.not.2 hnum) (hsame.trans hscaled.symm)
      rw [val, val, hcancel]
    · rw [div_left_inj' (by positivity)] at heq
      exact_mod_cast heq

end Sys2Proof.Machine
end

section
/-! Where rounding underflows to a zero, and where it keeps a value that fits (42_float_numerics.md R124, R127, R129). -/

namespace Sys2Proof.Machine

theorem not_zero_of_isInf {x : Word} (h : isInf x = true) : isZero x = false := by
  rw [← Bool.not_eq_true, isZero_iff]
  obtain ⟨hexp, -⟩ := (isInf_iff x).1 h
  omega

/-- The rounded significand is zero up to one half of the least subnormal. -/
theorem roundSig_eq_zero_iff (n : Nat) {d : Nat} (hd : 0 < d) : roundSig n d = 0 ↔ 2 ^ 150 * n ≤ d := by
  have hhalf : roundSig n d = 0 ↔ 2 * (n * 2 ^ 149) ≤ d * 2 ^ roundExp n d := divNearestEven_eq_zero_iff (by positivity)
  by_cases hk : roundExp n d = 0
  · rw [hhalf, hk]
    omega
  · have hlow := le_magnitude hk
    have hunit : d * 1 ≤ d * 2 ^ roundExp n d := Nat.mul_le_mul_left d Nat.one_le_two_pow
    rw [hhalf]
    omega

/-- The result is a zero up to one half of the least subnormal, and above it never (R124). -/
theorem isZero_round32_iff (num : ℤ) {den : Nat} (hden : 0 < den) (z : Bool) :
    isZero (round32 num den z) = true ↔ |(num : ℚ) / den| ≤ (2 : ℚ) ^ (-150 : ℤ) := by
  have hhalf : |(num : ℚ) / den| ≤ (2 : ℚ) ^ (-150 : ℤ) ↔ roundSig num.natAbs den = 0 := by
    rw [roundSig_eq_zero_iff _ hden, abs_div_natCast, zpow_neg, div_le_iff₀ (by exact_mod_cast hden),
      le_inv_mul_iff₀ (by positivity)]
    exact_mod_cast Iff.rfl
  by_cases hnum : num = 0
  · simp [hnum, round32_zero]
  rw [hhalf]
  by_cases hfit : roundedMag num.natAbs den < 2 ^ 277
  · obtain ⟨-, hmag, -⟩ := holdsRounded_round32 hnum hden z hfit
    simp [← scaledMag_eq_zero_iff, hmag]
  · have hsig : roundSig num.natAbs den ≠ 0 := fun h => hfit (by rw [roundedMag, h, zero_mul]; positivity)
    rw [round32_overflow hnum hden z (not_lt.1 hfit), not_zero_of_isInf (isInf_infOf _)]
    exact iff_of_false Bool.false_ne_true hsig

/-- The exponent found for a magnitude of at most 24 significant bits leaves all of them. -/
theorem roundExp_le_of_exact {n d m i : Nat} (hd : 0 < d) (hm : m < 2 ^ 24) (h : n * 2 ^ 149 = m * 2 ^ i * d) :
    roundExp n d ≤ i := by
  by_cases hk : roundExp n d = 0
  · omega
  · have hlow := le_magnitude hk
    rw [h, mul_comm d, ← mul_assoc] at hlow
    have hpow : 2 ^ (23 + roundExp n d) ≤ m * 2 ^ i := by
      rw [pow_add]
      exact Nat.le_of_mul_le_mul_right hlow hd
    have hbits := lt_add_of_le_mul_two_pow hm hpow
    omega

/-- A magnitude of at most 24 significant bits is kept. -/
theorem roundedMag_of_exact {n d m i : Nat} (hd : 0 < d) (hm : m < 2 ^ 24) (h : n * 2 ^ 149 = m * 2 ^ i * d) :
    roundedMag n d = m * 2 ^ i := by
  have hsplit : m * 2 ^ i = m * 2 ^ (i - roundExp n d) * 2 ^ roundExp n d := by
    rw [mul_assoc, ← pow_add, Nat.sub_add_cancel (roundExp_le_of_exact hd hm h)]
  rw [roundedMag, hsplit, roundSig_of_scaled hd (hsplit ▸ h) rfl]

/-- A value of at most 24 significant bits, its exponent in range, is kept (R124). -/
theorem round32_exact {num m : ℤ} {den i : Nat} (hden : 0 < den) (hm : m.natAbs < 2 ^ 24) (hi : i ≤ 253)
    (h : num * 2 ^ 149 = m * 2 ^ i * den) (z : Bool) :
    isFinite (round32 num den z) = true ∧ scaled (round32 num den z) = m * 2 ^ i := by
  by_cases hnum : num = 0
  · have hzero : isZero (round32 num den z) = true := by rw [hnum, round32_zero, isZero_zeroOf]
    have hm0 : m = 0 := by simpa [hnum, hden.ne'] using h.symm
    exact ⟨isFinite_of_isZero hzero, by rw [(scaled_eq_zero_iff _).2 hzero, hm0, zero_mul]⟩
  · have hmag : roundedMag num.natAbs den = m.natAbs * 2 ^ i :=
      roundedMag_of_exact hden hm (by simpa [Int.natAbs_mul, Int.natAbs_pow] using congrArg Int.natAbs h)
    have hfit : roundedMag num.natAbs den < 2 ^ 277 := by
      rw [hmag, show 277 = 24 + 253 from rfl, pow_add]
      exact Nat.mul_lt_mul_of_lt_of_le hm (Nat.pow_le_pow_right two_pos hi) (by positivity)
    have hsign : num.sign = m.sign := by
      have hcast : (den : ℤ).sign = 1 := Int.sign_eq_one_of_pos (by exact_mod_cast hden)
      have hpow (k : ℕ) : ((2 : ℤ) ^ k).sign = 1 := Int.sign_eq_one_of_pos (pow_pos two_pos k)
      simpa only [Int.sign_mul, hpow, hcast, mul_one] using congrArg Int.sign h
    have hholds := holdsRounded_round32 hnum hden z hfit
    have hscaled := sign_mul_scaled_round32 hnum hholds
    obtain ⟨hfin, -, -⟩ := hholds
    refine ⟨hfin, mul_left_cancel₀ (Int.sign_eq_zero_iff_zero.not.2 hnum) ?_⟩
    rw [hscaled, hmag, hsign, ← mul_assoc, Int.sign_mul_self_eq_natAbs]
    push_cast
    rfl

end Sys2Proof.Machine
end

section
/-! Products case by case (42_float_numerics.md R126, R127). -/

namespace Sys2Proof.Machine

theorem finite_or_inf_of_not_nan {x : Word} (h : isNaN x = false) : isFinite x = true ∨ isInf x = true := by
  obtain ⟨hfin, -⟩ | ⟨-, hinf, -⟩ | ⟨-, -, hnan⟩ := finite_or_inf_or_nan x
  · exact .inl hfin
  · exact .inr hinf
  · simp [h] at hnan

theorem fmul32_comm (a b : Word) : fmul32 a b = fmul32 b a := by
  have hinvalid : (isInf a && isZero b || isZero a && isInf b) = (isInf b && isZero a || isZero b && isInf a) := by
    rw [Bool.or_comm, Bool.and_comm (isZero a), Bool.and_comm (isInf a)]
  rw [fmul32, fmul32, hinvalid, Bool.or_comm (isNaN a), Bool.or_comm (isInf a), Bool.xor_comm (signBit a), mul_comm]

/-- An infinity times what is no NaN and no zero is an infinity (R126). -/
theorem fmul32_of_inf {a b : Word} (ha : isInf a = true) (hb : isNaN b = false) (hzero : isZero b = false) :
    fmul32 a b = infOf (signBit a ^^ signBit b) := by
  simp [fmul32, not_nan_of_isInf ha, not_zero_of_isInf ha, ha, hb, hzero]

/-- The exact product, as the model holds it. -/
theorem scaled_mul_div (a b : Word) : ((scaled a * scaled b : ℤ) : ℚ) / (2 ^ 298 : ℕ) = val a * val b := by
  rw [val, val, div_mul_div_comm, ← pow_add, Int.cast_mul, Nat.cast_pow, Nat.cast_ofNat]

/-- The product of finite patterns is the exact product rounded once, whatever fraction it is written as (R126). -/
theorem fmul32_eq_round32 {a b : Word} (ha : isFinite a = true) (hb : isFinite b = true) {num : ℤ} {den : Nat}
    (hden : 0 < den) (h : (num : ℚ) / den = val a * val b) :
    fmul32 a b = round32 num den (signBit a ^^ signBit b) := by
  rw [fmul32_of_isFinite ha hb]
  exact round32_congr (by positivity) hden ((scaled_mul_div a b).trans h.symm) _

theorem decide_mul_neg {m n : ℤ} (hm : m ≠ 0) (hn : n ≠ 0) :
    decide (m * n < 0) = (decide (m < 0) ^^ decide (n < 0)) := by
  obtain hneg | hpos := lt_or_gt_of_ne hm
  · have hflip : m * n < 0 ↔ ¬ n < 0 := by
      rw [mul_neg_iff]
      omega
    simp only [hflip, hneg, decide_not, decide_true, Bool.true_xor]
  · have hkeep : m * n < 0 ↔ n < 0 := by
      rw [mul_neg_iff]
      omega
    simp only [hkeep, hpos.not_gt, decide_false, Bool.false_xor]

/-- The sign of a finite product is the exclusive-or of the signs, of a zero too (R126). -/
theorem signBit_fmul32 {a b : Word} (ha : isFinite a = true) (hb : isFinite b = true) :
    signBit (fmul32 a b) = (signBit a ^^ signBit b) := by
  rw [fmul32_of_isFinite ha hb]
  by_cases hprod : scaled a * scaled b = 0
  · rw [hprod, round32_zero, signBit_zeroOf]
  · obtain ⟨hsa, hsb⟩ := mul_ne_zero_iff.1 hprod
    rw [signBit_round32 hprod, decide_mul_neg hsa hsb]
    rw [ne_eq, scaled_eq_zero_iff, Bool.not_eq_true] at hsa hsb
    simp only [scaled_neg_iff hsa, scaled_neg_iff hsb, Bool.decide_eq_true]

theorem fmul32_overflow {a b : Word} (ha : isFinite a = true) (hb : isFinite b = true)
    (h : 2 ^ 128 - 2 ^ 103 ≤ |val a * val b|) : fmul32 a b = infOf (signBit a ^^ signBit b) := by
  have hinf : isInf (fmul32 a b) = true := by
    rw [fmul32_of_isFinite ha hb, round32_of_overflow (by positivity) (by rwa [scaled_mul_div]), isInf_infOf]
  rw [← signBit_fmul32 ha hb, ← eq_infOf hinf]

theorem fmul32_underflow {a b : Word} (ha : isFinite a = true) (hb : isFinite b = true)
    (h : |val a * val b| ≤ (2 : ℚ) ^ (-150 : ℤ)) : fmul32 a b = zeroOf (signBit a ^^ signBit b) := by
  have hzero : isZero (fmul32 a b) = true := by
    rw [fmul32_of_isFinite ha hb, isZero_round32_iff _ (by positivity), scaled_mul_div]
    exact h
  rw [← signBit_fmul32 ha hb, ← eq_zeroOf hzero]

/-- Settles O42: overflow and underflow are the thresholds of rounding, with the sign of every finite product. -/
theorem multiplicationCases : Obligations.MultiplicationCases := fun a b =>
  ⟨fmul32_of_isNaN, fmul32_of_inf_of_zero, fmul32_of_inf,
    fun _ _ ha hb hden h => fmul32_eq_round32 ha hb hden h,
    fun ha hb => by rw [fmul32_comm, fmul32_of_finite_of_zero hb ha, Bool.xor_comm],
    fmul32_overflow, fmul32_underflow, signBit_fmul32, fmul32_comm a b⟩

/-- The product of two integers below `2^24` in magnitude is exact (R127). -/
theorem fmul32_of_int {a b : Word} {m n : ℤ} (ha : isFinite a = true) (hb : isFinite b = true) (hm : val a = m)
    (hn : val b = n) (hlt : |m * n| < 2 ^ 24) :
    isFinite (fmul32 a b) = true ∧ val (fmul32 a b) = ((m * n : ℤ) : ℚ) := by
  have hprod : ((m * n : ℤ) : ℚ) / (1 : ℕ) = val a * val b := by
    rw [hm, hn]
    push_cast
    ring
  obtain ⟨hfin, hscaled⟩ := round32_exact (num := m * n) (m := m * n) (i := 149) one_pos (by zify; exact hlt) (by decide)
    (by rw [Nat.cast_one, mul_one]) (signBit a ^^ signBit b)
  rw [fmul32_eq_round32 ha hb one_pos hprod, val, hscaled]
  refine ⟨hfin, ?_⟩
  push_cast
  exact mul_div_cancel_right₀ _ (by positivity)

/-- Multiplying by `1.0` keeps every pattern but a NaN (R127). -/
theorem fmul32_one_of_not_nan {c : Word} (h : isNaN c = false) : fmul32 c f32One = c := by
  obtain hfin | hinf := finite_or_inf_of_not_nan h
  · exact fmul32_one hfin
  · rw [fmul32_of_inf hinf (by decide) (by decide), show signBit f32One = false from rfl, Bool.xor_false, ← eq_infOf hinf]

/-- Settles O43: an integer product below `2^24` has no more significant bits than a significand; the examples by
evaluation. -/
theorem multiplicationConsequences : Obligations.MultiplicationConsequences := by
  refine ⟨fun c h => fmul32_one_of_not_nan h, fun c h => ?_, fun a b m n => fmul32_of_int, by decide +kernel⟩
  rw [fmul32_of_finite_of_zero h (by decide)]
  cases signBit c <;> rfl

end Sys2Proof.Machine
end

section
/-! Sums case by case (42_float_numerics.md R128, R129). -/

namespace Sys2Proof.Machine

/-- An infinity and a finite pattern sum to the infinity (R128). -/
theorem fadd32_of_inf_of_finite {a b : Word} (ha : isInf a = true) (hb : isFinite b = true) : fadd32 a b = a := by
  obtain ⟨hnb, hib⟩ := not_nan_not_inf_of_isFinite hb
  simp [fadd32, not_nan_of_isInf ha, ha, hnb, hib]

theorem fadd32_of_finite_of_inf {a b : Word} (ha : isFinite a = true) (hb : isInf b = true) : fadd32 a b = b := by
  obtain ⟨hna, hia⟩ := not_nan_not_inf_of_isFinite ha
  simp [fadd32, not_nan_of_isInf hb, hb, hna, hia]

theorem fadd32_comm (a b : Word) : fadd32 a b = fadd32 b a := by
  by_cases hnan : isNaN a = true ∨ isNaN b = true
  · rw [fadd32_of_isNaN hnan, fadd32_of_isNaN hnan.symm]
  · obtain ⟨hna, hnb⟩ := not_or.1 hnan
    obtain ha | ha := finite_or_inf_of_not_nan (Bool.not_eq_true _ ▸ hna)
    · obtain hb | hb := finite_or_inf_of_not_nan (Bool.not_eq_true _ ▸ hnb)
      · rw [fadd32_of_isFinite ha hb, fadd32_of_isFinite hb ha, add_comm, Bool.and_comm]
      · rw [fadd32_of_finite_of_inf ha hb, fadd32_of_inf_of_finite hb ha]
    · obtain hb | hb := finite_or_inf_of_not_nan (Bool.not_eq_true _ ▸ hnb)
      · rw [fadd32_of_inf_of_finite ha hb, fadd32_of_finite_of_inf hb ha]
      · rw [fadd32_of_isInf ha hb, fadd32_of_isInf hb ha]
        by_cases hs : signBit a = signBit b
        · rw [if_pos hs, if_pos hs.symm, eq_infOf ha, eq_infOf hb, hs]
        · rw [if_neg hs, if_neg (Ne.symm hs)]

/-- The exact sum, as the model holds it. -/
theorem scaled_add_div (a b : Word) : ((scaled a + scaled b : ℤ) : ℚ) / (2 ^ 149 : ℕ) = val a + val b := by
  rw [val, val, ← add_div, Int.cast_add, Nat.cast_pow, Nat.cast_ofNat]

theorem scaled_add_eq_zero_iff (a b : Word) : scaled a + scaled b = 0 ↔ val a + val b = 0 := by
  rw [← scaled_add_div, div_eq_zero_iff, Int.cast_eq_zero, or_iff_left (by positivity)]

/-- A nonzero sum of finite patterns is the exact sum rounded once, whatever fraction it is written as (R128). -/
theorem fadd32_eq_round32 {a b : Word} (ha : isFinite a = true) (hb : isFinite b = true) {num : ℤ} {den : Nat}
    (hden : 0 < den) (h : (num : ℚ) / den = val a + val b) (hnum : num ≠ 0) : fadd32 a b = round32 num den false := by
  rw [fadd32_of_isFinite ha hb, round32_congr (by positivity) hden ((scaled_add_div a b).trans h.symm),
    round32_of_ne_zero hnum, round32_of_ne_zero hnum]

/-- Two patterns with the minus sign and a zero sum are zeros. -/
theorem eq_negZero_of_sum_zero {a b : Word} (hsum : scaled a + scaled b = 0) (ha : signBit a = true)
    (hb : signBit b = true) : a = 0x80000000#32 := by
  have hmag : scaledMag a = 0 := by
    simp only [scaled, ha, hb, if_true] at hsum
    omega
  rw [eq_zeroOf ((scaledMag_eq_zero_iff a).1 hmag), ha]
  rfl

/-- A zero sum is `-0.0` for two `-0.0`, else `+0.0` (R128). -/
theorem fadd32_of_sum_zero {a b : Word} (ha : isFinite a = true) (hb : isFinite b = true) (hsum : val a + val b = 0) :
    fadd32 a b = if a = 0x80000000#32 ∧ b = 0x80000000#32 then 0x80000000#32 else 0x00000000#32 := by
  rw [← scaled_add_eq_zero_iff] at hsum
  rw [fadd32_of_isFinite ha hb, hsum, round32_zero]
  split
  case isTrue h =>
    obtain ⟨rfl, rfl⟩ := h
    rfl
  case isFalse h =>
    have hsign : (signBit a && signBit b) = false := by
      by_contra hs
      obtain ⟨hsa, hsb⟩ := Bool.and_eq_true_iff.1 (Bool.not_eq_false _ ▸ hs)
      exact h ⟨eq_negZero_of_sum_zero hsum hsa hsb, eq_negZero_of_sum_zero (add_comm (scaled a) _ ▸ hsum) hsb hsa⟩
    rw [hsign]
    rfl

/-- Settles O44: the classes of the operands decide; `2^24 + 1 + 1` shows that the order of additions matters. -/
theorem additionCases : Obligations.AdditionCases :=
  ⟨fun a b => ⟨fadd32_of_isNaN, fadd32_of_isInf, fadd32_of_inf_of_finite, fadd32_of_finite_of_inf, fadd32_of_sum_zero,
    fun _ _ ha hb hden h hnum => fadd32_eq_round32 ha hb hden h hnum, fadd32_comm a b⟩,
    0x4B800000#32, 0x3F800000#32, 0x3F800000#32, by decide +kernel⟩

/-- A multiple of a power of two, in units of the least subnormal. -/
theorem scaled_of_val_mul_two_pow {x : Word} {m : ℤ} {i : Nat} (h : val x = m * (2 : ℚ) ^ ((i : ℤ) - 149)) :
    scaled x = m * 2 ^ i := by
  have hrat : (scaled x : ℚ) = m * 2 ^ i := by
    rw [scaled_eq, h, zpow_sub₀ two_ne_zero, zpow_natCast, mul_assoc]
    congr 1
    exact div_mul_cancel₀ _ (by positivity)
  exact_mod_cast hrat

/-- The sum of two multiples of `2^j` below `2^(j+24)` is exact, where `2^(j+24)` does not overflow (R129). -/
theorem fadd32_exact {a b : Word} {m n j : ℤ} (ha : isFinite a = true) (hb : isFinite b = true) (hlow : -149 ≤ j)
    (hhigh : j ≤ 104) (hm : val a = m * (2 : ℚ) ^ j) (hn : val b = n * (2 : ℚ) ^ j)
    (hlt : |val a + val b| < (2 : ℚ) ^ (j + 24)) :
    isFinite (fadd32 a b) = true ∧ val (fadd32 a b) = val a + val b := by
  obtain ⟨i, rfl⟩ : ∃ i : ℕ, j = i - 149 := ⟨(j + 149).toNat, by omega⟩
  have hsum : scaled a + scaled b = (m + n) * 2 ^ i := by
    rw [scaled_of_val_mul_two_pow hm, scaled_of_val_mul_two_pow hn, add_mul]
  have hbits : (m + n).natAbs < 2 ^ 24 := by
    have hpos : (0 : ℚ) < 2 ^ ((i : ℤ) - 149) := by positivity
    rw [hm, hn, ← add_mul, abs_mul, abs_of_pos hpos, add_comm _ (24 : ℤ), zpow_add₀ two_ne_zero,
      mul_lt_mul_iff_left₀ hpos] at hlt
    zify
    exact_mod_cast hlt
  obtain ⟨hfin, hscaled⟩ := round32_exact (num := scaled a + scaled b) (den := 2 ^ 149) (by positivity) hbits
    (by omega : i ≤ 253) (by rw [hsum]; norm_num) (signBit a && signBit b)
  rw [fadd32_of_isFinite ha hb, val, hscaled, ← hsum, ← scaled_add_div]
  exact ⟨hfin, by norm_num⟩

/-- A nonzero sum is at least the least subnormal (R129). -/
theorem le_abs_sum {a b : Word} (h : val a + val b ≠ 0) : (2 : ℚ) ^ (-149 : ℤ) ≤ |val a + val b| := by
  have hone : 1 ≤ |scaled a + scaled b| := Int.one_le_abs ((scaled_add_eq_zero_iff a b).not.2 h)
  rw [← scaled_add_div, abs_div, Nat.abs_cast, zpow_neg, inv_eq_one_div]
  push_cast
  exact div_le_div_of_nonneg_right (by exact_mod_cast hone) (by positivity)

/-- A nonzero sum never underflows to a zero (R129). -/
theorem fadd32_not_zero {a b : Word} (ha : isFinite a = true) (hb : isFinite b = true) (h : val a + val b ≠ 0) :
    isZero (fadd32 a b) = false := by
  have hhalf : (2 : ℚ) ^ (-150 : ℤ) < 2 ^ (-149 : ℤ) := by norm_num
  rw [← Bool.not_eq_true, fadd32_of_isFinite ha hb, isZero_round32_iff _ (by positivity), scaled_add_div, not_le]
  exact hhalf.trans_le (le_abs_sum h)

/-- Adding a pattern to `+0.0` keeps it, but for `-0.0` and a NaN (R129). -/
theorem fadd32_posZero_of_not_nan {c : Word} (hnan : isNaN c = false) (hne : c ≠ 0x80000000#32) :
    fadd32 0x00000000#32 c = c := by
  obtain hfin | hinf := finite_or_inf_of_not_nan hnan
  · rw [fadd32_posZero_left hfin, if_neg hne]
  · exact fadd32_of_finite_of_inf (by decide) hinf

/-- Adding a zero of either sign keeps a pattern that is no NaN and no zero (R129). -/
theorem fadd32_zeroOf_of_not_zero {c : Word} (sg : Bool) (hnan : isNaN c = false) (hzero : isZero c = false) :
    fadd32 c (zeroOf sg) = c := by
  obtain hfin | hinf := finite_or_inf_of_not_nan hnan
  · have hne : c ≠ 0x80000000#32 := by
      rintro rfl
      exact absurd hzero (by decide)
    exact fadd32_zeroOf_right hfin hne sg
  · exact fadd32_of_inf_of_finite hinf (isFinite_of_isZero (isZero_zeroOf sg))

/-- Settles O45: a sum is an integer in units of the least subnormal, exact where its bits fit a significand; the examples
by evaluation. -/
theorem additionConsequences : Obligations.AdditionConsequences :=
  ⟨by decide +kernel, by decide +kernel, fun _ => fadd32_posZero_of_not_nan, fun _ sg => fadd32_zeroOf_of_not_zero sg,
    fun _ _ _ _ _ => fadd32_exact, fun _ _ ha hb h => ⟨le_abs_sum h, fadd32_not_zero ha hb h⟩, by decide +kernel⟩

end Sys2Proof.Machine
end

section
/-! Edges and commands that leave the state: an idle edge (60_exceptions.md R150) and the illegal commands (R140). -/

namespace Sys2Proof.Machine

/-- An edge at which no command is offered and no response waits keeps the state (R150). -/
theorem edgeStep_of_idle {e : ClockEdge} {s : State} (hr : e.rst = false) (hv : e.cmdValid = false)
    (hs : s.response = none) : edgeStep e s = .next s := by
  have hrsp : ¬ s.rspTransfer e = true := by simp [rspTransfer_iff, hs]
  have hcmd : ¬ s.cmdTransfer e = true := by simp [cmdTransfer_iff, hv]
  rw [edgeStep, hr, if_neg Bool.false_ne_true, if_neg hrsp, if_neg hcmd]

/-- Settles O12: no edge is placed, or the placed edge transfers nothing. -/
theorem idleKeepsState : Obligations.IdleKeepsState :=
  fun _ => ⟨step_nil, fun _ _ he hr hv hs => (step_cons he).trans (edgeStep_of_idle hr hv hs)⟩

/-- A word with a reserved opcode is answered with the illegal response, and nothing else changes (R69, R140). -/
theorem exec_decode_of_reserved {w : CommandWord} (h : opField w = 0#3 ∨ opField w = 6#3 ∨ opField w = 7#3) (s : State) :
    exec (decode w) s = .next (s.respond illegalResponse) := by
  obtain h | h | h := h
  · rw [decode_of_opField h]
    exact exec_eq (.illegalZero (argField w)) s
  · rw [decode_of_opField h]
    exact exec_eq (.illegalHigh 6#3 (argField w)) s
  · rw [decode_of_opField h]
    exact exec_eq (.illegalHigh 7#3 (argField w)) s

/-- A run goes on from the state its first command leaves once the response is transferred (R47, R65). -/
theorem runCommands_cons_of_exec {i : Instr} {s t : State} (h : exec i s = .next t) (rest : List Instr) :
    runCommands (i :: rest) s = runCommands rest t.deliver := by
  rw [runCommands, h]

/-- A response that is given where none waits and then transferred is recorded, and nothing else changes (R65). -/
theorem deliver_respond {s : State} (h : s.response = none) (r : Response) :
    (s.respond r).deliver = { s with taken := s.taken ++ [r] } := by
  simp [State.deliver, State.respond, h]

/-- Settles O16: by constructor and by word an illegal command only responds, and its response, once transferred, is all
that the next command finds added. -/
theorem illegalCommandChangesNothing : Obligations.IllegalCommandChangesNothing := by
  intro s arg
  refine ⟨exec_eq (.illegalZero arg) s, fun op _ => exec_eq (.illegalHigh op arg) s, fun w hw => ?_⟩
  have hexec := exec_decode_of_reserved hw s
  refine ⟨hexec, fun j hs => ?_⟩
  rw [runCommands_cons_of_exec hexec, deliver_respond hs]
  rfl

end Sys2Proof.Machine
end

section
/-! Reset at an edge (70_reset_and_hazards.md R160, R161; 60_exceptions.md R144). -/

namespace Sys2Proof.Machine

/-- A step with a reset edge placed resets the block, whatever else the edge carries (R144, R160). -/
theorem step_of_rst {s : State} {e : ClockEdge} {rest : List ClockEdge} (he : s.edges = e :: rest) (hr : e.rst = true) :
    step s = .next { s with edges := rest }.resetBlock := by
  rw [step_cons he, edgeStep, if_pos hr]

/-- With the same edges placed, reset leaves the same state where the constants and the transferred responses agree
(R161). -/
theorem resetBlock_congr {s t : State} (hcoeff : t.coeff = s.coeff) (hnan : t.toIntNan = s.toIntNan)
    (htaken : t.taken = s.taken) (rest : List ClockEdge) :
    { t with edges := rest }.resetBlock = { s with edges := rest }.resetBlock := by
  simp [State.resetBlock, hcoeff, hnan, htaken]

/-- A step that transfers a command uses up its edge and executes the command (R61). -/
theorem step_of_cmdTransfer {s : State} {e : ClockEdge} {rest : List ClockEdge} (he : s.edges = e :: rest)
    (ht : s.cmdTransfer e = true) :
    step s = .next ((filterEffect (decode e.cmdWord) { s with edges := rest }).respond
      (answer (decode e.cmdWord) { s with edges := rest })) := by
  rw [step_cons he, edgeStep_of_cmdTransfer (s := { s with edges := rest }) ht, exec_eq]

/-- Settles O8: the edge resets the block, every port is low at it, and INIT clears the same two fields. -/
theorem resetEdgeGivesResetState : Obligations.ResetEdgeGivesResetState := by
  intro s e rest he hr
  obtain ⟨hzero, -⟩ := resetValues
  refine ⟨_, step_of_rst he hr, rfl, hzero, ?_, ?_, ?_, ?_, fun f hf => ?_, fun a => ⟨_, exec_eq (.init a) s, rfl, rfl⟩⟩
  · simp [State.cmdReady, hr]
  · simp [State.rspValid, hr]
  · simp [State.cmdTransfer, hr]
  · simp [State.rspTransfer, hr]
  · simp [State.cmdReady, hf]

/-- Settles O9: reset keeps only what neither a waiting response nor a command before it can have changed. -/
theorem resetDiscardsWorkInProgress : Obligations.ResetDiscardsWorkInProgress := by
  intro s e f rest hf
  refine ⟨fun he => ⟨_, step_of_rst he hf, rfl, rfl, step_of_rst rfl rfl⟩, fun he ht => ?_⟩
  obtain ⟨hcoeff, hnan, hedges, htaken⟩ := filterEffect_frame (decode e.cmdWord) { s with edges := f :: rest }
  refine ⟨_, _, step_of_cmdTransfer he ht, step_of_rst hedges hf, (step_of_rst rfl hf).trans ?_⟩
  exact congrArg Host.Outcome.next (resetBlock_congr hcoeff hnan htaken rest).symm

end Sys2Proof.Machine
end

section
/-! A waiting response on a schedule without commands or resets (70_reset_and_hazards.md R175). -/

namespace Sys2Proof.Machine

/-- Idle edges keep a state in which no response waits (R150). -/
theorem driveEdges_of_idle {es : List ClockEdge} (hr : ∀ e ∈ es, e.rst = false) (hv : ∀ e ∈ es, e.cmdValid = false)
    {s : State} (hs : s.response = none) : driveEdges es s = some s := by
  induction es with
  | nil => rfl
  | cons e es ih =>
    obtain ⟨hre, hres⟩ := List.forall_mem_cons.1 hr
    obtain ⟨hve, hves⟩ := List.forall_mem_cons.1 hv
    rw [driveEdges_cons (edgeStep_of_idle hre hve hs)]
    exact ih hres hves

/-- A schedule without commands or resets transfers the waiting response, or keeps the state, as the host takes the
response or not (R175). -/
theorem driveEdges_of_waiting {es : List ClockEdge} (hr : ∀ e ∈ es, e.rst = false) (hv : ∀ e ∈ es, e.cmdValid = false)
    {s : State} (hs : s.response.isSome = true) :
    driveEdges es s = some (if hostTakesResponse es then s.deliver else s) := by
  induction es with
  | nil => rfl
  | cons e es ih =>
    obtain ⟨hre, hres⟩ := List.forall_mem_cons.1 hr
    obtain ⟨hve, hves⟩ := List.forall_mem_cons.1 hv
    cases hy : e.rspReady with
    | true =>
      have htakes : hostTakesResponse (e :: es) = true := by simp [hostTakesResponse, hy, hre]
      rw [driveEdges_cons (edgeStep_of_rspTransfer ((rspTransfer_iff s e).2 ⟨hre, hs, hy⟩)), if_pos htakes]
      exact driveEdges_of_idle hres hves (deliver_response s)
    | false =>
      have htakes : hostTakesResponse (e :: es) = hostTakesResponse es := by simp [hostTakesResponse, hy]
      rw [driveEdges_cons (edgeStep_of_held hre hs hy), htakes]
      exact ih hres hves

/-- Settles O56: the schedule ends in the state with the response transferred, or in the state it began in. -/
theorem takingTheResponseFreesTheBlock : Obligations.TakingTheResponseFreesTheBlock := by
  intro es s r hs hr hv
  have hdrive := driveEdges_of_waiting hr hv (by simp [hs] : s.response.isSome = true)
  cases htakes : hostTakesResponse es with
  | true => exact ⟨s.deliver, by simpa [htakes] using hdrive, rfl, rfl, fun _ => ⟨rfl, by simp [hs]⟩, nofun⟩
  | false => exact ⟨s, by simpa [htakes] using hdrive, rfl, rfl, nofun, fun _ => rfl⟩

end Sys2Proof.Machine
end

section
/-! The one-PUSH-then-one-PRODUCE contract on any sequence of commands (70_reset_and_hazards.md R166, R168, R169): between
a PUSH and its PRODUCE the log of samples does not change, so every PRODUCE answers for the samples so far. -/

namespace Sys2Proof.Machine

/-- The responses of the PRODUCE commands in a run. -/
def produceResponses (cs : List Instr) (rs : List Response) : List Response :=
  ((cs.zip rs).filter fun p => isProduce p.1).map Prod.snd

theorem produceResponses_produce (a : Word) (cs : List Instr) (r : Response) (rs : List Response) :
    produceResponses (.produce a :: cs) (r :: rs) = r :: produceResponses cs rs := rfl

theorem produceResponses_of_not_isProduce {i : Instr} (h : isProduce i = false) (cs : List Instr) (r : Response)
    (rs : List Response) : produceResponses (i :: cs) (r :: rs) = produceResponses cs rs := by
  simp [produceResponses, h]

/-- One output per sample pushed after `log`, each for the samples up to it (R168). -/
def outputsAfter (c : Nat → Word) (log xs : List Word) : List Response :=
  (List.range xs.length).map fun n => okResponse (filterOutput c (log ++ xs.take (n + 1)))

theorem outputsAfter_cons (c : Nat → Word) (log : List Word) (x : Word) (xs : List Word) :
    outputsAfter c log (x :: xs) = okResponse (filterOutput c (log ++ [x])) :: outputsAfter c (log ++ [x]) xs := by
  simp [outputsAfter, List.range_succ_eq_map]

/-- What PRODUCE commands under the contract answer: where a PUSH waits for its PRODUCE, the output for the log comes first
(R168). -/
def contractOutputs (c : Nat → Word) (log : List Word) (owed : Bool) (xs : List Word) : List Response :=
  if owed then okResponse (filterOutput c log) :: outputsAfter c log xs else outputsAfter c log xs

/-- A command that is no Filter Core command keeps the log (R26). -/
theorem historyHolds_executed_of_not_isCoreCommand {log : List Word} {s : State} (h : historyHolds log s) {i : Instr}
    (hi : isCoreCommand i = false) : historyHolds log (executed i s) := by
  rw [executed, filterEffect_of_not_writesFilter (writesFilter_of_not_isCoreCommand hi)]
  exact historyHolds_congr (window_congr rfl rfl) h

/-- A command that is no Filter Core command plays no part in the contract (R169). -/
theorem contract_of_not_isCoreCommand {i : Instr} (h : isCoreCommand i = false) (owed : Bool) (cs : List Instr) :
    filterContract owed (i :: cs) = filterContract owed cs ∧ isProduce i = false ∧ pushOperand i = none := by
  cases i with
  | init _ | push _ | produce _ => contradiction
  | toFloat _ _ | toInt _ | illegalZero _ | illegalHigh _ _ => exact ⟨rfl, rfl, rfl⟩

/-- One command under the contract: the rest of the sequence keeps the contract, from the ring the command leaves, and the
command's own answer is the next output exactly where it is a PRODUCE (R168, R169). -/
theorem filterContract_cons {i : Instr} {cs : List Instr} (hinit : isInit i = false) {owed : Bool}
    (hcontract : filterContract owed (i :: cs) = true) {log : List Word} {s : State} (hlog : historyHolds log s) :
    ∃ owed' log', filterContract owed' cs = true ∧ historyHolds log' (executed i s) ∧ ∀ rs,
      produceResponses cs rs = contractOutputs s.coefficient log' owed' (cs.filterMap pushOperand) →
      produceResponses (i :: cs) (answer i s :: rs) =
        contractOutputs s.coefficient log owed ((i :: cs).filterMap pushOperand) := by
  cases hcore : isCoreCommand i with
  | false =>
    obtain ⟨hskip, hproduce, hpush⟩ := contract_of_not_isCoreCommand hcore owed cs
    refine ⟨owed, log, hskip ▸ hcontract, historyHolds_executed_of_not_isCoreCommand hlog hcore, fun rs hrs => ?_⟩
    rw [produceResponses_of_not_isProduce hproduce, List.filterMap_cons_none hpush, hrs]
  | true =>
    cases i with
    | init _ | toFloat _ _ | toInt _ | illegalZero _ | illegalHigh _ _ => contradiction
    | push x =>
      obtain ⟨rfl, hrest⟩ : owed = false ∧ filterContract true cs = true := by simpa [filterContract] using hcontract
      refine ⟨true, log ++ [x], hrest, historyHolds_executed_push hlog x, fun rs hrs => ?_⟩
      rw [produceResponses_of_not_isProduce rfl, List.filterMap_cons_some (f := pushOperand) rfl, hrs]
      exact (outputsAfter_cons _ log x _).symm
    | produce a =>
      obtain ⟨rfl, hrest⟩ : owed = true ∧ filterContract false cs = true := by simpa [filterContract] using hcontract
      refine ⟨false, log, hrest, historyHolds_executed_produce hlog a, fun rs hrs => ?_⟩
      rw [produceResponses_produce, List.filterMap_cons_none rfl, hrs, answer_produce, dotProduct_of_historyHolds hlog]
      rfl

/-- Under the contract, from a ring that holds `log`, the PRODUCE commands answer for the samples so far (R168, R169). -/
theorem runCommands_of_filterContract {cs : List Instr} (hinit : ∀ i ∈ cs, isInit i = false) {owed : Bool}
    (hcontract : filterContract owed cs = true) {log : List Word} {s : State} (hlog : historyHolds log s) :
    ∃ t rs, runCommands cs s = some t ∧ t.taken = s.taken ++ rs ∧
      produceResponses cs rs = contractOutputs s.coefficient log owed (cs.filterMap pushOperand) := by
  induction cs generalizing owed log s with
  | nil =>
    obtain rfl : owed = false := by simpa [filterContract] using hcontract
    exact ⟨s, [], rfl, by simp, rfl⟩
  | cons i cs ih =>
    obtain ⟨hi, hrest⟩ := List.forall_mem_cons.1 hinit
    obtain ⟨owed', log', hcontract', hlog', houtputs⟩ := filterContract_cons hi hcontract hlog
    obtain ⟨t, rs, hrun, htaken, hrs⟩ := ih hrest hcontract' hlog'
    rw [coefficient_congr (executed_coeff i s)] at hrs
    exact ⟨t, answer i s :: rs, (runCommands_cons_executed i cs s).trans hrun, by simp [htaken], houtputs rs hrs⟩

/-- Settles O54: INIT empties the log, and each output is that of the samples so far. -/
theorem contractGivesConvolution : Obligations.ContractGivesConvolution := by
  intro a cs s hinit hcontract
  have hempty : historyHolds [] (executed (.init a) s) := historyHolds_of_cleared rfl
  obtain ⟨t, rs, hrun, htaken, hrs⟩ := runCommands_of_filterContract hinit hcontract hempty
  refine ⟨t, (runCommands_cons_executed _ cs s).trans hrun, ?_⟩
  have hdrop : t.taken.drop (s.taken.length + 1) = rs := by simp [htaken]
  rw [hdrop]
  refine hrs.trans (List.map_congr_left fun n hn => ?_)
  rw [coefficient_congr (executed_coeff _ s), List.nil_append, filterOutput_take s (List.mem_range.1 hn)]
  rfl

end Sys2Proof.Machine
end

section
/-! The streaming loop (70_reset_and_hazards.md R171 to R174). The loop and the SAMPLE sequence send the same Filter Core
commands in the same order and differ in where the conversions stand, which touch no filter state (R26). -/

namespace Sys2Proof.Machine

/-! The exchanges of the loop, where no response waits. -/

/-- A command keeps the parameter TOINT_NAN (R104). -/
@[simp] theorem executed_toIntNan (i : Instr) (s : State) : (executed i s).toIntNan = s.toIntNan := by
  obtain ⟨-, hnan, -, -⟩ := filterEffect_frame i s
  exact hnan

/-- An integer operand is sent with the ignored bits zero (R72). -/
theorem toFloat_instr (last : Option Word) (x : Half) :
    (AsmCommand.toFloat (.bits x)).instr last = some (.toFloat 0#16 x) := by
  simp [AsmCommand.instr, IntArg.value, ← zero_append_half]

/-- The host reads an integer result back from `data` (R64, R67). -/
@[simp] theorem argLow_signExtend (r : Half) : argLow (r.signExtend 32) = r := by
  ext i hi
  simp [argLow, BitVec.getElem_signExtend, hi, show i < 32 by omega]

theorem convertIn_eq {s : State} (hs : s.response = none) (x : Half) :
    convertIn x s = some (i16ToF32 x, executed (.toFloat 0#16 x) s) := by
  rw [convertIn, askCommands, sendCommands_cons (toFloat_instr _ x) rfl hs, sendCommands]
  simp [answer, okResponse]

theorem convertOut_eq {s : State} (hs : s.response = none) (y : Word) :
    convertOut y s = some (f32ToI16Sat s.toIntNan y, executed (.toInt y) s) := by
  rw [convertOut, askCommands, sendCommands_cons (i := .toInt y) rfl rfl hs, sendCommands]
  simp [answer, okResponse]

/-- PUSH `$` after TOFLOAT sends the converted sample (R72, R73). -/
theorem push_last_instr (ignored x : Half) (s : State) :
    (AsmCommand.push .last).instr (executed (.toFloat ignored x) s).lastData = some (.push (i16ToF32 x)) := by
  rw [executed_lastData]
  rfl

/-- TOINT `$` after PRODUCE sends the output (R72, R73). -/
theorem toInt_last_instr (a : Word) (s : State) :
    (AsmCommand.toInt .last).instr (executed (.produce a) s).lastData = some (.toInt s.dotProduct) := by
  rw [executed_lastData]
  rfl

/-- One SAMPLE is the FILTER of the converted sample, its output converted back (R73, R171). -/
theorem processSample_eq {s : State} (hs : s.response = none) (x : Half) :
    processSample x s =
      (filterSample (i16ToF32 x) (executed (.toFloat 0#16 x) s)).bind fun r => convertOut r.1 r.2 := by
  rw [filterSample_eq rfl, Option.bind_some, convertOut_eq rfl, processSample, AsmLine.expand, askCommands,
    sendCommands_cons (toFloat_instr _ x) rfl hs, sendCommands_cons (push_last_instr 0#16 x s) rfl rfl,
    sendCommands_cons (i := .produce 0#32) rfl rfl rfl, sendCommands_cons (toInt_last_instr 0#32 _) rfl rfl, sendCommands]
  simp [answer, okResponse]

/-! Exchanges in sequence. -/

theorem mapAccum_cons_eq_some_iff {α β : Type} {f : α → State → Option (β × State)} {x : α} {xs : List α}
    {zs : List β} {s u : State} : mapAccum f (x :: xs) s = some (zs, u) ↔
      ∃ y ys t, f x s = some (y, t) ∧ mapAccum f xs t = some (ys, u) ∧ zs = y :: ys := by
  constructor
  · intro h
    simp only [mapAccum] at h
    split at h
    · contradiction
    · next y t hx =>
      split at h
      · contradiction
      · next ys v hxs =>
        obtain ⟨rfl, rfl⟩ : y :: ys = zs ∧ v = u := by simpa using h
        exact ⟨y, ys, t, hx, hxs, rfl⟩
  · rintro ⟨y, ys, t, hx, hxs, rfl⟩
    simp only [mapAccum, hx, hxs]

theorem mapAccum_append {α β : Type} {f : α → State → Option (β × State)} {xs xs' : List α} {ys ys' : List β}
    {s t u : State} (h : mapAccum f xs s = some (ys, t)) (h' : mapAccum f xs' t = some (ys', u)) :
    mapAccum f (xs ++ xs') s = some (ys ++ ys', u) := by
  induction xs generalizing s ys with
  | nil =>
    obtain ⟨rfl, rfl⟩ : [] = ys ∧ s = t := by simpa [mapAccum] using h
    exact h'
  | cons x xs ih =>
    obtain ⟨y, zs, v, hx, hxs, rfl⟩ := mapAccum_cons_eq_some_iff.1 h
    exact mapAccum_cons_eq_some_iff.2 ⟨y, zs ++ ys', v, hx, ih hxs, rfl⟩

theorem length_of_mapAccum {α β : Type} {f : α → State → Option (β × State)} {xs : List α} {ys : List β}
    {s t : State} (h : mapAccum f xs s = some (ys, t)) : ys.length = xs.length := by
  induction xs generalizing s ys with
  | nil =>
    obtain ⟨rfl, -⟩ : [] = ys ∧ s = t := by simpa [mapAccum] using h
    rfl
  | cons x xs ih =>
    obtain ⟨y, zs, v, -, hxs, rfl⟩ := mapAccum_cons_eq_some_iff.1 h
    exact congrArg (· + 1) (ih hxs)

/-- Exchanges that each keep a property of the state and answer a function of their element. -/
theorem mapAccum_eq_map {α β : Type} {f : α → State → Option (β × State)} {g : α → β} {P : State → Prop}
    (hf : ∀ x s, P s → ∃ t, f x s = some (g x, t) ∧ P t) (xs : List α) {s : State} (hs : P s) :
    ∃ t, mapAccum f xs s = some (xs.map g, t) ∧ P t := by
  induction xs generalizing s with
  | nil => exact ⟨s, rfl, hs⟩
  | cons x xs ih =>
    obtain ⟨u, hx, hu⟩ := hf x s hs
    obtain ⟨t, hxs, ht⟩ := ih hu
    exact ⟨t, mapAccum_cons_eq_some_iff.2 ⟨_, _, u, hx, hxs, rfl⟩, ht⟩

/-- The dot product reads the filter only (R85). -/
theorem dotProduct_of_sameFilter {s t : State} (h : SameFilter s t) : s.dotProduct = t.dotProduct :=
  congrArg Response.data (answer_of_sameFilter (i := .produce 0#32) rfl h)

/-! Two hosts at the same place of one stream. -/

/-- Two states without a waiting response that agree on the filter and on TOINT_NAN, which is `n`. -/
structure SameStream (n : Half) (s t : State) : Prop where
  filter : SameFilter s t
  idle_left : s.response = none
  idle_right : t.response = none
  nan_left : s.toIntNan = n
  nan_right : t.toIntNan = n

theorem SameStream.refl {s : State} (hs : s.response = none) : SameStream s.toIntNan s s :=
  ⟨⟨rfl, rfl, rfl⟩, hs, hs, rfl, rfl⟩

theorem SameStream.symm {n : Half} {s t : State} (h : SameStream n s t) : SameStream n t s := by
  obtain ⟨⟨hhist, hcursor, hcoeff⟩, hs, ht, hns, hnt⟩ := h
  exact ⟨⟨hhist.symm, hcursor.symm, hcoeff.symm⟩, ht, hs, hnt, hns⟩

theorem SameStream.executed_both {n : Half} {s t : State} (h : SameStream n s t) (i : Instr) :
    SameStream n (executed i s) (executed i t) :=
  ⟨sameFilter_executed h.filter i, rfl, rfl, by rw [executed_toIntNan, h.nan_left],
    by rw [executed_toIntNan, h.nan_right]⟩

/-- A conversion may stand in one stream and not in the other (R26, R169). -/
theorem SameStream.executed_left {n : Half} {s t : State} (h : SameStream n s t) {i : Instr}
    (hi : isCoreCommand i = false) : SameStream n (executed i s) t :=
  ⟨sameFilter_executed_left h.filter hi, rfl, h.idle_right, by rw [executed_toIntNan, h.nan_left], h.nan_right⟩

theorem SameStream.executed_right {n : Half} {s t : State} (h : SameStream n s t) {i : Instr}
    (hi : isCoreCommand i = false) : SameStream n s (executed i t) :=
  (h.symm.executed_left hi).symm

/-- The FILTER sequence of a converted sample in one stream beside the SAMPLE sequence in the other (R171). -/
theorem SameStream.filterSample_processSample {n : Half} {s t : State} (h : SameStream n s t) (x : Half) :
    ∃ y u v, filterSample (i16ToF32 x) s = some (y, u) ∧ processSample x t = some (f32ToI16Sat n y, v) ∧
      SameStream n u v := by
  have hconverted := h.executed_right (i := .toFloat 0#16 x) rfl
  have hpushed := hconverted.executed_both (.push (i16ToF32 x))
  have hproduced := hpushed.executed_both (.produce 0#32)
  refine ⟨(executed (.push (i16ToF32 x)) s).dotProduct, _, _, filterSample_eq h.idle_left _, ?_,
    hproduced.executed_right (i := .toInt (executed (.push (i16ToF32 x)) s).dotProduct) rfl⟩
  rw [processSample_eq h.idle_right, filterSample_eq rfl, Option.bind_some, convertOut_eq rfl, hproduced.nan_right,
    dotProduct_of_sameFilter hpushed.filter]

theorem SameStream.mapAccum_filterSample_processSample {n : Half} {s t : State} (h : SameStream n s t) (xs : List Half) :
    ∃ ys u v, mapAccum filterSample (xs.map i16ToF32) s = some (ys, u) ∧
      mapAccum processSample xs t = some (ys.map (f32ToI16Sat n), v) ∧ SameStream n u v := by
  induction xs generalizing s t with
  | nil => exact ⟨[], s, t, rfl, rfl, h⟩
  | cons x xs ih =>
    obtain ⟨y, s', t', hs, ht, h'⟩ := h.filterSample_processSample x
    obtain ⟨ys, u, v, hu, hv, huv⟩ := ih h'
    exact ⟨y :: ys, u, v, mapAccum_cons_eq_some_iff.2 ⟨_, _, s', hs, hu, rfl⟩,
      mapAccum_cons_eq_some_iff.2 ⟨_, _, t', ht, hv, rfl⟩, huv⟩

/-- A chunk in one stream beside its SAMPLE sequences in the other: all conversions in, then the FILTER sequences, then all
conversions out (R172, R173). -/
theorem SameStream.chunk_and_samples {n : Half} {s t : State} (h : SameStream n s t) (xs : List Half) :
    ∃ ys u v, processChunk xs s = some (ys, u) ∧ mapAccum processSample xs t = some (ys, v) ∧ SameStream n u v := by
  obtain ⟨s₁, hin, h₁⟩ := mapAccum_eq_map (P := (SameStream n · t)) (fun x s hs =>
    ⟨_, convertIn_eq hs.idle_left x, hs.executed_left rfl⟩) xs h
  obtain ⟨ys, s₂, v, hfilter, hsample, h₂⟩ := h₁.mapAccum_filterSample_processSample xs
  obtain ⟨u, hout, h₃⟩ := mapAccum_eq_map (P := (SameStream n · v)) (fun y s hs =>
    ⟨_, hs.nan_left ▸ convertOut_eq hs.idle_left y, hs.executed_left rfl⟩) ys h₂
  exact ⟨_, u, v, by simp only [processChunk, hin, hfilter, hout], hsample, h₃⟩

theorem processStream_cons {c : List Half} (hc : c ≠ []) {rest : List (List Half)} {ys zs : List Half} {s t u : State}
    (h : processChunk c s = some (ys, t)) (hrest : processStream rest t = some (zs, u)) :
    processStream (c :: rest) s = some (ys ++ zs, u) := by
  cases c with
  | nil => contradiction
  | cons x xs => simp only [processStream, h, hrest]

/-- The loop on chunks that are not empty, up to the end of the input or an empty chunk, beside the SAMPLE sequences of
their samples (R171 to R173). -/
theorem SameStream.stream_and_samples {n : Half} {s t : State} (h : SameStream n s t) {cs : List (List Half)}
    (hcs : ∀ c ∈ cs, c ≠ []) {tail : List (List Half)} (htail : ∀ s, processStream tail s = some ([], s)) :
    ∃ ys u v, processStream (cs ++ tail) s = some (ys, u) ∧ mapAccum processSample cs.flatten t = some (ys, v) ∧
      SameStream n u v := by
  induction cs generalizing s t with
  | nil =>
    exact ⟨[], s, t, htail s, rfl, h⟩
  | cons c cs ih =>
    obtain ⟨hc, hrest⟩ := List.forall_mem_cons.1 hcs
    obtain ⟨ys, s', t', hchunk, hsample, h'⟩ := h.chunk_and_samples c
    obtain ⟨zs, u, v, hstream, hsamples, huv⟩ := ih h' hrest
    exact ⟨ys ++ zs, u, v, processStream_cons hc hchunk hstream, mapAccum_append hsample hsamples, huv⟩

/-- Settles O58: the two streams start in one state. -/
theorem streamEqualsSampleSequence : Obligations.StreamEqualsSampleSequence := by
  intro cs rest s hcs hs
  obtain ⟨ys, t, u, hstream, hsample, h⟩ := (SameStream.refl hs).stream_and_samples hcs (tail := [] :: rest) fun _ => rfl
  obtain ⟨hhist, hcursor, -⟩ := h.filter
  exact ⟨ys, t, u, hstream, hsample, hhist, hcursor⟩

/-- Settles O57: each chunking answers as the SAMPLE sequences of its samples do. -/
theorem chunkingDoesNotMatter : Obligations.ChunkingDoesNotMatter := by
  intro cs ds s hcs hds hflat hs
  obtain ⟨ys, t, v, hct, hcv, htv⟩ := (SameStream.refl hs).stream_and_samples hcs (tail := []) fun _ => rfl
  obtain ⟨zs, u, w, hdu, hdw, huw⟩ := (SameStream.refl hs).stream_and_samples hds (tail := []) fun _ => rfl
  rw [← hflat] at hdw
  obtain ⟨rfl, rfl⟩ : ys = zs ∧ v = w := by simpa [hcv] using hdw
  obtain ⟨hthist, htcursor, -⟩ := htv.filter
  obtain ⟨huhist, hucursor, -⟩ := huw.filter
  rw [List.append_nil] at hct hdu
  exact ⟨ys, t, u, hct, hdu, length_of_mapAccum hcv, hthist.trans huhist.symm, htcursor.trans hucursor.symm⟩

end Sys2Proof.Machine
end

section
/-! The command words that the spec writes out (95_test_vectors.md, P5 and V-I to V-X), split at bit 32 (R62). -/

namespace Sys2Proof

/-- Settles O4: each word is its opcode above its operand word, and its row of the opcode map says what it decodes to. -/
theorem specWordsDecode : Obligations.SpecWordsDecode := by
  obtain ⟨hmap, -⟩ := decoderFollowsOpcodeMap
  have hinit : (0x1DEADBEEF : CommandWord) = 1#3 ++ 0xDEADBEEF#32 := by decide
  have hpush : (0x240000000 : CommandWord) = 2#3 ++ 0x40000000#32 := by decide
  have hproduce : (0x3FFFFFFFF : CommandWord) = 3#3 ++ 0xFFFFFFFF#32 := by decide
  have htoFloat : (0x4FFFF0001 : CommandWord) = 4#3 ++ 0xFFFF0001#32 := by decide
  have htoInt : (0x5BF800000 : CommandWord) = 5#3 ++ 0xBF800000#32 := by decide
  have hzero : (0x03F800000 : CommandWord) = 0#3 ++ 0x3F800000#32 := by decide
  have hsix : (0x6FFFFFFFF : CommandWord) = 6#3 ++ 0xFFFFFFFF#32 := by decide
  have hseven : (0x712345678 : CommandWord) = 7#3 ++ 0x12345678#32 := by decide
  rw [Obligations.SpecWordsDecode, hinit, hpush, hproduce, htoFloat, htoInt, hzero, hsix, hseven]
  simp only [hmap]
  decide

end Sys2Proof
end
